-- ==== Sys2Proof/Word.lean ====
section
/-! DEFINITION. The two word types of the block: the 32-bit word (00_scope.md R9 `WORD`, R12) and the byte (R13). -/

namespace Sys2Proof

/-- A u32 value: the width of every register, state word and host bus transfer (R9). Its `+`, `^^^`, `&&&`, `|||` are the modulo 2^32 operations of R12. -/
abbrev Word := BitVec 32

/-- A byte (R13). -/
abbrev Byte := BitVec 8

end Sys2Proof
end

