-- ==== Sys2Proof/Syntax.lean ====
section
/-! DEFINITION. The commands of the block, one constructor per row of the opcode map (30_encoding.md R82). -/

namespace Sys2Proof

/-- A command. The four operands of QR are the unsigned 4-bit state indices QA, QB, QC, QD (R81): no index is out of range
(60_exceptions.md R162). No other command has an operand in its word. -/
inductive Instr where
  /-- QR: quarter round on STATE[a], STATE[b], STATE[c], STATE[d] (40_chacha20.md R106). -/
  | qr (a b c d : BitVec 4)
  /-- BLOCK: one ChaCha20 block into STATE (R107). -/
  | block
  /-- STREAM: counter-mode XOR of a buffer region (R108). -/
  | stream
  /-- POLY: Poly1305 MAC of a buffer region into TAG (41_poly1305.md R130). -/
  | poly
  /-- KEYGEN: Poly1305 one-time key into PKEY (R131). -/
  | keygen
  /-- AEAD_ENC: ChaCha20-Poly1305 encryption of a buffer region (42_aead.md R145). -/
  | aeadEnc
  /-- AEAD_DEC: ChaCha20-Poly1305 decryption of a buffer region (R146). -/
  | aeadDec
deriving DecidableEq, Repr

end Sys2Proof
end

