-- ==== Sys2Proof/WellFormed.lean ====
section
/-! DEFINITION. Which command words are legal encodings (30_encoding.md R83), said apart from the decoder. Every term of `Instr` is
well formed: its only operands are 4-bit fields (R81, R162). The well-formedness of the parameters is `Config.wf`. -/

namespace Sys2Proof

/-- The fields of a command word that R83 speaks of (R80). -/
def Word.op (v : Word) : BitVec 4 := v.extractLsb' 0 4
def Word.reservedLow (v : Word) : BitVec 4 := v.extractLsb' 4 4
def Word.operandBits (v : Word) : BitVec 16 := v.extractLsb' 8 16
def Word.reservedHigh (v : Word) : BitVec 8 := v.extractLsb' 24 8

/-- R83, negated: the word is legal when none of "OP = 0x0; OP in 0x8 to 0xF; bits [7:4] ≠ 0; bits [31:24] ≠ 0; OP ≠ 0x1 and
bits [23:8] ≠ 0" holds. -/
def wellFormedWord (v : Word) : Bool :=
  Word.op v != 0#4
    && !(decide (8 ≤ (Word.op v).toNat))
    && Word.reservedLow v == 0#4
    && Word.reservedHigh v == 0#8
    && (Word.op v == 1#4 || Word.operandBits v == 0#16)

end Sys2Proof
end

