-- ==== Sys2Proof/Decode.lean ====
section
/-! DEFINITION. Decoding and encoding of the command word (30_encoding.md R80 to R85). -/

namespace Sys2Proof

/-- Why a word is no command, one name per condition of R83. The machine reports each as ILLEGAL_CMD (60_exceptions.md R161). -/
inductive IllegalWord where
  /-- OP = 0x0. -/
  | opZero
  /-- OP in 0x8 to 0xF. -/
  | opReserved
  /-- Bits [7:4] ≠ 0. -/
  | reservedLow
  /-- Bits [31:24] ≠ 0. -/
  | reservedHigh
  /-- OP ≠ 0x1 and bits [23:8] ≠ 0. -/
  | operandBits
deriving DecidableEq, Repr

/-- The first condition of R83 that a word meets, for a word no row of R82 matches. -/
def illegalReason (v : Word) : IllegalWord :=
  if Word.op v = 0#4 then .opZero
  else if 8 ≤ (Word.op v).toNat then .opReserved
  else if Word.reservedLow v ≠ 0#4 then .reservedLow
  else if Word.reservedHigh v ≠ 0#8 then .reservedHigh
  else .operandBits

/-- "A word w decodes to the row with `(w & mask) = match`" (R82). -/
def rowMatches (v pattern mask : Word) : Bool := v &&& mask == pattern

/-- Operand fields of a QR word (R81). -/
def fieldQA (v : Word) : BitVec 4 := v.extractLsb' 8 4
def fieldQB (v : Word) : BitVec 4 := v.extractLsb' 12 4
def fieldQC (v : Word) : BitVec 4 := v.extractLsb' 16 4
def fieldQD (v : Word) : BitVec 4 := v.extractLsb' 20 4

/-- The decoder: total on every 32-bit word, the rows of R82 with their match and mask, every other word illegal (R83). -/
def decode (v : Word) : Except IllegalWord Instr :=
  if rowMatches v 0x00000001#32 0xFF0000FF#32 then .ok (.qr (fieldQA v) (fieldQB v) (fieldQC v) (fieldQD v))
  else if rowMatches v 0x00000002#32 0xFFFFFFFF#32 then .ok .block
  else if rowMatches v 0x00000003#32 0xFFFFFFFF#32 then .ok .stream
  else if rowMatches v 0x00000004#32 0xFFFFFFFF#32 then .ok .poly
  else if rowMatches v 0x00000005#32 0xFFFFFFFF#32 then .ok .keygen
  else if rowMatches v 0x00000006#32 0xFFFFFFFF#32 then .ok .aeadEnc
  else if rowMatches v 0x00000007#32 0xFFFFFFFF#32 then .ok .aeadDec
  else .error (illegalReason v)

/-- The word of a command: `0x00000001 | (a << 8) | (b << 12) | (c << 16) | (d << 20)` for QR (R85), the exact words of R82 for
the others. -/
def encode : Instr → Word
  | .qr a b c d =>
      0x00000001#32 ||| (a.setWidth 32 <<< 8) ||| (b.setWidth 32 <<< 12) ||| (c.setWidth 32 <<< 16) ||| (d.setWidth 32 <<< 20)
  | .block => 0x00000002#32
  | .stream => 0x00000003#32
  | .poly => 0x00000004#32
  | .keygen => 0x00000005#32
  | .aeadEnc => 0x00000006#32
  | .aeadDec => 0x00000007#32

/-- The word of a row whose lowest `nbits` bits are those of `w`, the bits above them 0. A command word is one 32-bit word and is
never laid out in memory (R80, R76), so bit 0 of the table is bit 0 of the word. -/
def tableWord (nbits w : Nat) : Word := BitVec.ofNat 32 (w % 2 ^ nbits)

/-- The instruction the decoder reads from a row of the opcode table. -/
def decodeTableWord (nbits w : Nat) : Option Instr :=
  match decode (tableWord nbits w) with
  | .ok i => some i
  | .error _ => none

end Sys2Proof
end

