-- ==== Sys2Proof/Config.lean ====
section
/-! DEFINITION. What an implementation fixes (00_scope.md R9, the `parameter` rows) and the free values the spec leaves open. -/

namespace Sys2Proof

/-- The parameters of one machine, carried in the state and changed by no step (R9; log 1). `LATENCY` and `BUS_PROTOCOL`
are not observable at the transaction level and have no field (R204, D4; log 11). -/
structure Config where
  /-- `BUF_BYTES`, the size of the local data buffer in bytes. -/
  bufBytes : Nat
deriving DecidableEq, Repr

/-- "a multiple of 64 with 64 ≤ `BUF_BYTES` ≤ 65536" (R9). -/
def Config.wf (c : Config) : Bool :=
  c.bufBytes % 64 == 0 && decide (64 ≤ c.bufBytes) && decide (c.bufBytes ≤ 65536)

/-- The machine with the spec's default buffer size ("default 4096", R9). -/
def Config.standard : Config := { bufBytes := 4096 }

/-- Free value: what buffer byte `o` holds at power-on ("unspecified", R50; U13 "any value per byte"; log 2). -/
opaque Config.powerOnByte : Nat → Byte

/-- Free value: what the `n`-th read of STATE, PKEY, TAG or the buffer while BUSY returns (R47; U11 "any value per read,
independently"; log 3). -/
opaque Config.busyRead : Nat → Word

/-- Free value: what destination byte `o` holds after the reset that made the `n`-th draw abandoned a command (R202; U14 "any
value per byte"; log 4). -/
opaque Config.abandonedByte : Nat → Nat → Byte

end Sys2Proof
end

