-- ==== Sys2Proof/Machine/State.lean ====
section
/-! DEFINITION. The state of the block (10_state.md, 20_memory.md), its inputs and responses, the reasons a step can stop, and the
state after reset (R50). -/

namespace Sys2Proof.Machine

/-- The error codes of 60_exceptions.md R160 other than NONE. Codes 0x01 to 0x03 are allocated and never produced (R162). -/
inductive ErrCode where
  | invalidKeySize
  | invalidNonceSize
  | invalidStateSize
  | counterOverflow
  | illegalCmd
  | indexAlias
  | range
  | overlap
deriving DecidableEq, Repr

/-- The width of a host access (20_memory.md R67). -/
inductive Width where
  | byte
  | half
  | word
deriving DecidableEq, Repr

/-- One host bus transaction at an offset of the 17-bit host window (R63, R67); a write carries its byte enables. -/
inductive Access where
  | read (off : BitVec 17) (width : Width)
  | write (off : BitVec 17) (width : Width) (enables : BitVec 4) (v : Word)
deriving DecidableEq, Repr

/-- What moves next (log 5): the host with one transaction, the engine (which does nothing unless a command is pending, R21), or an
edge of the reset input `rst_n` (70_reset_and_hazards.md R200). -/
inductive Input where
  | host (a : Access)
  | engine
  | resetAssert
  | resetRelease
deriving DecidableEq, Repr

/-- The response on the host bus: OKAY or ERROR (R67 to R69). -/
inductive BusStatus where
  | okay
  | error
deriving DecidableEq, Repr

/-- The response to one host transaction: its status, and for a read the word returned. -/
structure Response where
  status : BusStatus
  data : Option Word
deriving DecidableEq, Repr

/-- The bytes of the local buffer written since power-on, sorted by offset (R60; log 2). -/
abbrev Memory := List Host.Cell

/-- Why the machine stops with a fault: never. The spec describes no behaviour that stops the block: an error refuses a command
and is reported in STATUS (60_exceptions.md R167, R168), a bus error is a response (R172). Both are next states. -/
inductive Fault where
deriving DecidableEq, Repr

/-- Why the model gives a step no meaning. -/
inductive Refusal where
  /-- Raised by no arm of `exec`: every command has its meaning. Safe. -/
  | notModelled (mnemonic : String)
  /-- Raised by `takeInput` for a host transaction while `rst_n` is asserted: "outside this spec: a model refuses them"
  (70_reset_and_hazards.md R203). Safe: no claim is made about such a run. -/
  | hostAccessDuringReset
deriving DecidableEq, Repr

/-- Everything the spec gives the block. ID and BUFSIZE are constants (R24, R25) and the interrupt output is a function of
CTRL and STATUS (R173), so they have no field. -/
structure State where
  /-- The parameters of this machine (R9); no step changes them. -/
  cfg : Config
  /-- `rst_n` is asserted (R200). -/
  inReset : Bool
  /-- CTRL bit 0 (R26). -/
  irqEn : Bool
  /-- The command pending in the engine (R43); STATUS.BUSY is "1 while a command is pending in the engine" (R27). -/
  pending : Option Instr
  /-- STATUS.DONE (R29). -/
  done : Bool
  /-- STATUS.ERR and STATUS.ERRCODE, which are set and cleared together (R30). -/
  error : Option ErrCode
  /-- STATUS.WDROP (R31). -/
  wdrop : Bool
  /-- CMD (R32). -/
  cmd : Word
  /-- COUNTER (R33). -/
  counter : Word
  /-- SRC, DST, LEN (R34). -/
  src : Word
  dst : Word
  len : Word
  /-- AAD, AADLEN (R35). -/
  aad : Word
  aadLen : Word
  /-- KEY0 to KEY7 (R36). -/
  key : Vector Word 8
  /-- NONCE0 to NONCE2 (R37). -/
  nonce : Vector Word 3
  /-- TAG0 to TAG3 (R38). -/
  tag : Vector Word 4
  /-- PKEY0 to PKEY7 (R39). -/
  pkey : Vector Word 8
  /-- STATE0 to STATE15 (R40). -/
  state : Vector Word 16
  /-- BUF (R60). -/
  buf : Memory
  /-- The model's own: the inputs still to come, in order (log 5). -/
  inputs : List Input
  /-- The model's own: the response of the last host transaction (log 6). -/
  resp : Option Response
  /-- The model's own: how many free draws were made (log 3). -/
  draws : Nat
deriving DecidableEq, Repr

/-- The machine right after a power-on reset: every register as 10_state.md R50 says, no command pending, no buffer byte
written, `rst_n` released, the default buffer size. The model's own fields `inputs`, `resp`, `draws` start empty (DESIGN CHOICE,
logs 3, 5, 6). -/
def State.reset : State where
  cfg := Config.standard
  inReset := false
  irqEn := false
  pending := none
  done := false
  error := none
  wdrop := false
  cmd := 0
  counter := 0
  src := 0
  dst := 0
  len := 0
  aad := 0
  aadLen := 0
  key := Vector.replicate 8 0
  nonce := Vector.replicate 3 0
  tag := Vector.replicate 4 0
  pkey := Vector.replicate 8 0
  state := Vector.replicate 16 0
  buf := []
  inputs := []
  resp := none
  draws := 0

end Sys2Proof.Machine
end

