-- ==== Sys2Proof/Machine/Flags.lean ====
section
/-! DEFINITION. STATUS, CTRL and the interrupt output: 10_state.md R26 to R31, 60_exceptions.md R160, R173. The block has no other
flag (R41). -/

namespace Sys2Proof.Machine

/-- The numeric error codes (R160). -/
def ErrCode.code : ErrCode → BitVec 8
  | .invalidKeySize => 0x01
  | .invalidNonceSize => 0x02
  | .invalidStateSize => 0x03
  | .counterOverflow => 0x04
  | .illegalCmd => 0x05
  | .indexAlias => 0x06
  | .range => 0x07
  | .overlap => 0x08

/-- STATUS.BUSY (R28). -/
def State.busy (s : State) : Bool := s.pending.isSome

/-- STATUS.ERR (R30). -/
def State.err (s : State) : Bool := s.error.isSome

/-- STATUS.ERRCODE, 0 when none (R30). -/
def State.errCode (s : State) : BitVec 8 :=
  match s.error with
  | some e => e.code
  | none => 0

/-- The word a read of STATUS returns (R27): ERRCODE in [15:8], WDROP, ERR, DONE, BUSY in bits 3 to 0, the rest 0. -/
def statusWord (s : State) : Word :=
  0#16 ++ s.errCode ++ 0#4 ++ BitVec.ofBool s.wdrop ++ BitVec.ofBool s.err ++ BitVec.ofBool s.done ++ BitVec.ofBool s.busy

/-- A host write of STATUS: bit 1 clears DONE (R29), bit 2 clears ERR and ERRCODE (R30), bit 3 clears WDROP (R31); a 0 bit and
every other bit changes nothing. -/
def writeStatus (v : Word) (s : State) : State :=
  { s with
    done := s.done && !v.getLsbD 1
    error := if v.getLsbD 2 then none else s.error
    wdrop := s.wdrop && !v.getLsbD 3 }

/-- The word a read of CTRL returns: IRQ_EN in bit 0, the rest 0 (R26, R23). -/
def ctrlWord (s : State) : Word := 0#31 ++ BitVec.ofBool s.irqEn

/-- A host write of CTRL: only bit 0 is kept (R26, R23). -/
def writeCtrl (v : Word) (s : State) : State := { s with irqEn := v.getLsbD 0 }

/-- The interrupt output: `irq = CTRL.IRQ_EN and STATUS.DONE` (R173), driven low while `rst_n` is asserted (R200). -/
def State.irq (s : State) : Bool := s.irqEn && s.done && !s.inReset

end Sys2Proof.Machine
end

