-- ==== Sys2Proof/Machine/Bytes.lean ====
section
/-! DEFINITION. Byte strings and byte order: 00_scope.md R12 to R14, 20_memory.md R65 ("Byte order is little-endian throughout"). -/

namespace Sys2Proof.Machine

/-- `rotl32(x, n) = ((x * 2^n) mod 2^32) | (x div 2^(32 − n))` (R12). -/
def rotl32 (x : Word) (n : Nat) : Word := (x <<< n) ||| (x >>> (32 - n))

/-- `le_int(m) = sum over i of m[i] * 2^(8i)` (R13). -/
def leInt : List Byte → Nat
  | [] => 0
  | b :: m => b.toNat + 256 * leInt m

/-- `le_bytes_n(v)`, truncating (R13). -/
def leBytes : Nat → Nat → List Byte
  | 0, _ => []
  | n + 1, v => BitVec.ofNat 8 v :: leBytes n (v / 256)

/-- `LE64(v) = le_bytes_8(v)` (R13). -/
def le64 (v : Nat) : List Byte := leBytes 8 v

/-- `zeros(n)` (R13). -/
def zeros (n : Nat) : List Byte := List.replicate n 0

/-- `m[i:j]`: bytes i to j − 1, empty when i ≥ j, j clipped to len(m) (R13). -/
def slice (m : List Byte) (i j : Nat) : List Byte := (m.drop i).take (j - i)

/-- `xor(m, k)` for `len(k) ≥ len(m)` (R13). -/
def xorBytes (m k : List Byte) : List Byte := List.zipWith (· ^^^ ·) m k

/-- `le_bytes_4` of a word. -/
def wordBytes (w : Word) : List Byte := leBytes 4 w.toNat

/-- `words_to_bytes` (R14). -/
def wordsToBytes (ws : List Word) : List Byte := ws.flatMap wordBytes

/-- `bytes_to_words` of a string of 4n bytes: word i is `le_int(m[4i:4i+4])` (R14). -/
def bytesToWords (n : Nat) (m : List Byte) : Vector Word n :=
  Vector.ofFn fun i : Fin n => BitVec.ofNat 32 (leInt (slice m (4 * i.val) (4 * i.val + 4)))

end Sys2Proof.Machine
end

