-- ==== Sys2Proof/Machine/Operands.lean ====
section
/-! DEFINITION. The operands of the commands: state indices, key, nonce and Poly1305 key strings, and buffer regions. -/

namespace Sys2Proof.Machine

/-- A state index, "zero-extended, used unscaled" (30_encoding.md R81). -/
def stateIndex (a : BitVec 4) : Fin 16 := a.toFin

/-- `key = words_to_bytes(KEY[0..7])` (10_state.md R36). -/
def keyBytes (s : State) : List Byte := wordsToBytes s.key.toList

/-- `nonce = words_to_bytes(NONCE[0..2])` (R37). -/
def nonceBytes (s : State) : List Byte := wordsToBytes s.nonce.toList

/-- `constant = le_bytes_4(NONCE[0])` (R37). -/
def constantBytes (s : State) : List Byte := wordBytes s.nonce[0]

/-- `iv = le_bytes_4(NONCE[1]) ‖ le_bytes_4(NONCE[2])` (R37). -/
def ivBytes (s : State) : List Byte := wordBytes s.nonce[1] ++ wordBytes s.nonce[2]

/-- `pkey = words_to_bytes(PKEY[0..7])` (R39). -/
def pkeyBytes (s : State) : List Byte := wordsToBytes s.pkey.toList

/-- A span of the buffer given by an offset and a length (00_scope.md R16). -/
structure Region where
  off : Nat
  len : Nat
deriving DecidableEq, Repr

/-- The source region [SRC, SRC + LEN) (R34). -/
def srcRegion (s : State) : Region := { off := s.src.toNat, len := s.len.toNat }

/-- The destination region [DST, DST + LEN) (R34). -/
def dstRegion (s : State) : Region := { off := s.dst.toNat, len := s.len.toNat }

/-- The associated-data region [AAD, AAD + AADLEN) (R35). -/
def aadRegion (s : State) : Region := { off := s.aad.toNat, len := s.aadLen.toNat }

/-- `o + n ≤ BUF_BYTES`, "computed on unbounded integers", also when n = 0 (60_exceptions.md R164). -/
def Region.fits (r : Region) (bufBytes : Nat) : Bool := decide (r.off + r.len ≤ bufBytes)

/-- `Overlap(x, n, y, m)`: `n > 0 and m > 0 and x < y + m and y < x + n` (R165). -/
def Region.overlaps (r t : Region) : Bool :=
  decide (0 < r.len) && decide (0 < t.len) && decide (r.off < t.off + t.len) && decide (t.off < r.off + r.len)

/-- `Regions(op)`, in order (R164). -/
def regions (i : Instr) (s : State) : List Region :=
  match i with
  | .qr _ _ _ _ => []
  | .block => []
  | .stream => [srcRegion s, dstRegion s]
  | .poly => [srcRegion s]
  | .keygen => []
  | .aeadEnc => [srcRegion s, dstRegion s, aadRegion s]
  | .aeadDec => [srcRegion s, dstRegion s, aadRegion s]

/-- The commands that write the destination region: STREAM, AEAD_ENC, AEAD_DEC (R163, 70_reset_and_hazards.md R202). -/
def writesDst : Instr → Bool
  | .qr _ _ _ _ => false
  | .block => false
  | .stream => true
  | .poly => false
  | .keygen => false
  | .aeadEnc => true
  | .aeadDec => true

/-- The commands that read the associated-data region: AEAD_ENC, AEAD_DEC (R35). -/
def readsAad : Instr → Bool
  | .qr _ _ _ _ => false
  | .block => false
  | .stream => false
  | .poly => false
  | .keygen => false
  | .aeadEnc => true
  | .aeadDec => true

/-- A QR word whose four indices are not pairwise distinct (R161). -/
def indexAlias : Instr → Bool
  | .qr a b c d => a == b || a == c || a == d || b == c || b == d || c == d
  | .block => false
  | .stream => false
  | .poly => false
  | .keygen => false
  | .aeadEnc => false
  | .aeadDec => false

/-- The message needs a block counter beyond 2^32 − 1 (R163, R166): STREAM starts at COUNTER, AEAD_ENC and AEAD_DEC at 1. -/
def counterOverflows (i : Instr) (s : State) : Bool :=
  match i with
  | .qr _ _ _ _ => false
  | .block => false
  | .stream => decide ((2 ^ 32 - s.counter.toNat) * 64 < s.len.toNat)
  | .poly => false
  | .keygen => false
  | .aeadEnc => decide ((2 ^ 32 - 1) * 64 < s.len.toNat)
  | .aeadDec => decide ((2 ^ 32 - 1) * 64 < s.len.toNat)

end Sys2Proof.Machine
end

