-- ==== Sys2Proof/Machine/Ops.lean ====
section
/-! DEFINITION. The operations the commands and the host share: the buffer (20_memory.md R60 to R62), the validation of a command
(60_exceptions.md R163), the error report (R167), issue and completion (10_state.md R44, R45). -/

namespace Sys2Proof.Machine

/-! ### The buffer -/

/-- The canonical form: offsets strictly rising. An unlisted offset reads as unwritten (`none`), which no entry equals. -/
abbrev Memory.wf (m : Memory) : Prop := (m.map Prod.fst).Pairwise (· < ·)

/-- Every listed offset lies in the buffer (R60). -/
abbrev Memory.within (bufBytes : Nat) (m : Memory) : Prop := ∀ c ∈ m, c.1 < bufBytes

/-- The byte last written at an offset, `none` where nothing was written since power-on. -/
def Memory.read? : Memory → Nat → Option Byte
  | [], _ => none
  | (k, b) :: m, a => if k = a then some b else Memory.read? m a

/-- `BUF[a]`: the byte written there, or the unspecified power-on byte (R50; log 2). -/
def Memory.byteAt (m : Memory) (a : Nat) : Byte := (Memory.read? m a).getD (Config.powerOnByte a)

/-- `BUF[a] <- b`. -/
def Memory.write : Memory → Nat → Byte → Memory
  | [], a, b => [(a, b)]
  | (k, c) :: m, a, b =>
    if a < k then (a, b) :: (k, c) :: m
    else if a = k then (a, b) :: m
    else (k, c) :: Memory.write m a b

/-- The `n` bytes at offsets `o` to `o + n − 1`. -/
def Memory.readBytes (m : Memory) (o : Nat) : Nat → List Byte
  | 0 => []
  | n + 1 => Memory.byteAt m o :: Memory.readBytes m (o + 1) n

/-- The bytes of a string written at `o`, `o + 1`, … -/
def Memory.writeBytes (m : Memory) (o : Nat) : List Byte → Memory
  | [] => m
  | b :: bs => Memory.writeBytes (Memory.write m o b) (o + 1) bs

/-- `BUF[a]` in a state. -/
def State.byteAt (s : State) (a : Nat) : Byte := Memory.byteAt s.buf a

/-- `MemRead` of a region (R61). -/
def memRead (r : Region) (s : State) : List Byte := Memory.readBytes s.buf r.off r.len

/-- `MemWrite(o, len(m), m)` (R62). -/
def memWrite (o : Nat) (m : List Byte) (s : State) : State := { s with buf := Memory.writeBytes s.buf o m }

/-! ### Validation -/

/-- The checks of R163 after decoding, in their order: INDEX_ALIAS, RANGE, OVERLAP (source, then associated data, against the
destination), COUNTER_OVERFLOW; `none` when the command is accepted. -/
def validate (i : Instr) (s : State) : Option ErrCode :=
  if indexAlias i then some .indexAlias
  else if (regions i s).any (fun r => !r.fits s.cfg.bufBytes) then some .range
  else if writesDst i && decide (s.src ≠ s.dst) && (srcRegion s).overlaps (dstRegion s) then some .overlap
  else if readsAad i && (aadRegion s).overlaps (dstRegion s) then some .overlap
  else if counterOverflows i s then some .counterOverflow
  else none

/-- `Validate(v)` of a command word (R163): ILLEGAL_CMD first. -/
def validateWord (v : Word) (s : State) : Option ErrCode :=
  match decode v with
  | .error _ => some .illegalCmd
  | .ok i => validate i s

/-! ### The error report and its clearing -/

/-- The error report (R167): DONE, ERR, ERRCODE are set and BUSY is 0; nothing else is recorded. -/
def reportError (e : ErrCode) (s : State) : State := { s with pending := none, done := true, error := some e }

/-- What a command issue clears first: DONE, ERR, ERRCODE (R44, R169). -/
def clearReport (s : State) : State := { s with done := false, error := none }

/-! ### Issue and completion -/

/-- The last two assignments of the completion step: `STATUS.BUSY <- 0` and `STATUS.DONE <- 1` (R45). -/
def complete (s : State) : State := { s with pending := none, done := true }

/-- A host write of `v` to CMD while BUSY = 0, one indivisible step (R44). -/
def issue (v : Word) (s : State) : State :=
  let t := clearReport { s with cmd := v }
  match decode v with
  | .error _ => reportError .illegalCmd t
  | .ok i =>
    match validate i t with
    | some e => reportError e t
    | none => { t with pending := some i }

/-- A command as one transition: its checks (R163), the error report where one applies (R167), else its effect and the completion
(R45). For a command that was accepted at issue the checks pass again, since what they read cannot change while BUSY
(10_state.md R49; log 8). -/
def runCommand (i : Instr) (effect : State → State) (s : State) : Host.Outcome State Fault Refusal :=
  match validate i s with
  | some e => .next (reportError e s)
  | none => .next (complete (effect s))

end Sys2Proof.Machine
end

