-- ==== Sys2Proof/Machine/ChaCha20.lean ====
section
/-! DEFINITION. The ChaCha20 family: the functions of 40_chacha20.md R100 to R105 and the commands QR, BLOCK, STREAM (R106 to
R108). -/

namespace Sys2Proof.Machine

/-- The four words a quarter round computes from words a, b, c, d, in the order of the steps of R100. -/
def quarterWords (a b c d : Word) : Word × Word × Word × Word :=
  let a := a + b
  let d := rotl32 (d ^^^ a) 16
  let c := c + d
  let b := rotl32 (b ^^^ c) 12
  let a := a + b
  let d := rotl32 (d ^^^ a) 8
  let c := c + d
  let b := rotl32 (b ^^^ c) 7
  (a, b, c, d)

/-- `QuarterRound(s, a, b, c, d)` for pairwise distinct indices (R100): words a, b, c, d replaced, the others unchanged
(log 13). -/
def quarterRound (s : Vector Word 16) (a b c d : Fin 16) : Vector Word 16 :=
  let q := quarterWords s[a] s[b] s[c] s[d]
  (((s.set a q.1).set b q.2.1).set c q.2.2.1).set d q.2.2.2

/-- `DoubleRound(s)`: four columns, then four diagonals (R103). -/
def doubleRound (s : Vector Word 16) : Vector Word 16 :=
  let s := quarterRound s 0 4 8 12
  let s := quarterRound s 1 5 9 13
  let s := quarterRound s 2 6 10 14
  let s := quarterRound s 3 7 11 15
  let s := quarterRound s 0 5 10 15
  let s := quarterRound s 1 6 11 12
  let s := quarterRound s 2 7 8 13
  quarterRound s 3 4 9 14

/-- `n` double rounds. -/
def doubleRounds : Nat → Vector Word 16 → Vector Word 16
  | 0, s => s
  | n + 1, s => doubleRounds n (doubleRound s)

/-- `InitState(kw, ctr, nw)` (R102), with the constant words of R101. -/
def initState (kw : Vector Word 8) (ctr : Word) (nw : Vector Word 3) : Vector Word 16 :=
  #v[0x61707865#32, 0x3320646e#32, 0x79622d32#32, 0x6b206574#32,
     kw[0], kw[1], kw[2], kw[3], kw[4], kw[5], kw[6], kw[7],
     ctr, nw[0], nw[1], nw[2]]

/-- `BlockWords(kw, ctr, nw)`: 10 double rounds, then "add back the initial state" (R104). -/
def blockWords (kw : Vector Word 8) (ctr : Word) (nw : Vector Word 3) : Vector Word 16 :=
  let x0 := initState kw ctr nw
  Vector.zipWith (· + ·) x0 (doubleRounds 10 x0)

/-- `Block(key, ctr, nonce)`, 64 bytes (R104). -/
def block (key : List Byte) (ctr : Word) (nonce : List Byte) : List Byte :=
  wordsToBytes (blockWords (bytesToWords 8 key) ctr (bytesToWords 3 nonce)).toList

/-- `StreamXor(key, ctr, nonce, m)`: the concatenation over the blocks j with 64j < len(m) (R105). -/
def streamXor (key : List Byte) (ctr : Word) (nonce : List Byte) (m : List Byte) : List Byte :=
  (List.range ((m.length + 63) / 64)).flatMap fun j =>
    xorBytes (slice m (64 * j) (64 * j + 64)) (block key (ctr + BitVec.ofNat 32 j) nonce)

/-- The effect of QR at completion (R106). -/
def effectQr (a b c d : BitVec 4) (s : State) : State :=
  { s with state := quarterRound s.state (stateIndex a) (stateIndex b) (stateIndex c) (stateIndex d) }

/-- QR (R106). -/
def execQr (a b c d : BitVec 4) (s : State) : Host.Outcome State Fault Refusal :=
  runCommand (.qr a b c d) (effectQr a b c d) s

/-- The effect of BLOCK at completion (R107): "The previous STATE contents are not an input". -/
def effectBlock (s : State) : State := { s with state := blockWords s.key s.counter s.nonce }

/-- BLOCK (R107). -/
def execBlock (s : State) : Host.Outcome State Fault Refusal := runCommand .block effectBlock s

/-- The effect of STREAM at completion (R108): the source is read whole before any destination byte is written. -/
def effectStream (s : State) : State :=
  memWrite (dstRegion s).off (streamXor (keyBytes s) s.counter (nonceBytes s) (memRead (srcRegion s) s)) s

/-- STREAM (R108). -/
def execStream (s : State) : Host.Outcome State Fault Refusal := runCommand .stream effectStream s

end Sys2Proof.Machine
end

