-- ==== Sys2Proof/Machine/Poly1305.lean ====
section
/-! DEFINITION. The Poly1305 family: the functions of 41_poly1305.md R120 to R128 and the commands POLY, KEYGEN (R130, R131). -/

namespace Sys2Proof.Machine

/-- `P = 2^130 − 5` (R123). -/
def polyPrime : Nat := 2 ^ 130 - 5

/-- `CLAMP` (R120). -/
def polyClamp : Nat := 0x0ffffffc0ffffffc0ffffffc0fffffff

/-- `r = le_int(k[0:16]) & CLAMP` (R120). -/
def polyR (k : List Byte) : Nat := leInt (slice k 0 16) &&& polyClamp

/-- `s = le_int(k[16:32])`, no clamp (R121). -/
def polyS (k : List Byte) : Nat := leInt (slice k 16 32)

/-- The consecutive 16-byte chunks of a message; the last may be shorter and is never padded (R122). -/
def polyChunks (m : List Byte) : List (List Byte) :=
  (List.range ((m.length + 15) / 16)).map fun i => slice m (16 * i) (16 * i + 16)

/-- `n = le_int(c ‖ 0x01)` (R122). -/
def chunkValue (c : List Byte) : Nat := leInt (c ++ [0x01])

/-- `a <- ((a + n) * r) mod P`, exact integer arithmetic (R123). -/
def polyAccumulate (r a : Nat) (c : List Byte) : Nat := ((a + chunkValue c) * r) % polyPrime

/-- The accumulator after the last chunk, from `a = 0` (R123). -/
def polyAccumulator (m k : List Byte) : Nat := (polyChunks m).foldl (polyAccumulate (polyR k)) 0

/-- `Poly1305(m, k)` (R125): add s, take the low 16 bytes (R124). -/
def poly1305 (m k : List Byte) : List Byte := leBytes 16 (polyAccumulator m k + polyS k)

/-- `Poly1305KeyGen(key, nonce) = Block(key, 0, nonce)[0:32]` (R128). -/
def poly1305KeyGen (key nonce : List Byte) : List Byte := slice (block key 0 nonce) 0 32

/-- The effect of POLY at completion (R130). -/
def effectPoly (s : State) : State :=
  { s with tag := bytesToWords 4 (poly1305 (memRead (srcRegion s) s) (pkeyBytes s)) }

/-- POLY (R130). -/
def execPoly (s : State) : Host.Outcome State Fault Refusal := runCommand .poly effectPoly s

/-- The effect of KEYGEN at completion (R131): words 0 to 7 of the block at counter 0. -/
def effectKeygen (s : State) : State :=
  let w := blockWords s.key 0 s.nonce
  { s with pkey := #v[w[0], w[1], w[2], w[3], w[4], w[5], w[6], w[7]] }

/-- KEYGEN (R131). -/
def execKeygen (s : State) : Host.Outcome State Fault Refusal := runCommand .keygen effectKeygen s

end Sys2Proof.Machine
end

