-- ==== Sys2Proof/Machine/Aead.lean ====
section
/-! DEFINITION. The AEAD family: the functions of 42_aead.md R140 to R144 and the commands AEAD_ENC, AEAD_DEC (R145, R146). No command
compares tags (R147). -/

namespace Sys2Proof.Machine

/-- `Pad16(L) = zeros((16 − L mod 16) mod 16)` (R140). -/
def pad16 (len : Nat) : List Byte := zeros ((16 - len % 16) % 16)

/-- `MacInput(aad, ct)` (R142). -/
def macInput (aad ct : List Byte) : List Byte :=
  aad ++ pad16 aad.length ++ ct ++ pad16 ct.length ++ le64 aad.length ++ le64 ct.length

/-- `AeadEncrypt(aad, key, iv, constant, pt)`: the ciphertext and the tag (R143). -/
def aeadEncrypt (aad key iv constant pt : List Byte) : List Byte × List Byte :=
  let nonce := constant ++ iv
  let otk := poly1305KeyGen key nonce
  let ct := streamXor key 1 nonce pt
  (ct, poly1305 (macInput aad ct) otk)

/-- `AeadDecrypt(aad, key, iv, constant, ct)`: the plaintext and the recomputed tag, a MAC over the ciphertext (R144). -/
def aeadDecrypt (aad key iv constant ct : List Byte) : List Byte × List Byte :=
  let nonce := constant ++ iv
  let otk := poly1305KeyGen key nonce
  let pt := streamXor key 1 nonce ct
  (pt, poly1305 (macInput aad ct) otk)

/-- The effect of AEAD_ENC at completion (R145): all inputs are read before any output is written; the one-time key is not
written to PKEY. -/
def effectAeadEnc (s : State) : State :=
  let out := aeadEncrypt (memRead (aadRegion s) s) (keyBytes s) (ivBytes s) (constantBytes s) (memRead (srcRegion s) s)
  { memWrite (dstRegion s).off out.1 s with tag := bytesToWords 4 out.2 }

/-- AEAD_ENC (R145). -/
def execAeadEnc (s : State) : Host.Outcome State Fault Refusal := runCommand .aeadEnc effectAeadEnc s

/-- The effect of AEAD_DEC at completion (R146): the MAC is over the ciphertext read from SRC before any write; a wrong tag is
not detected (R147). -/
def effectAeadDec (s : State) : State :=
  let out := aeadDecrypt (memRead (aadRegion s) s) (keyBytes s) (ivBytes s) (constantBytes s) (memRead (srcRegion s) s)
  { memWrite (dstRegion s).off out.1 s with tag := bytesToWords 4 out.2 }

/-- AEAD_DEC (R146). -/
def execAeadDec (s : State) : Host.Outcome State Fault Refusal := runCommand .aeadDec effectAeadDec s

end Sys2Proof.Machine
end

