-- ==== Sys2Proof/Machine/Dispatch.lean ====
section
/-! DEFINITION. One arm per command. -/

namespace Sys2Proof.Machine

def exec (i : Instr) (s : State) : Host.Outcome State Fault Refusal :=
  match i with
  | .qr a b c d => Sys2Proof.Machine.execQr a b c d s
  | .block => Sys2Proof.Machine.execBlock s
  | .stream => Sys2Proof.Machine.execStream s
  | .poly => Sys2Proof.Machine.execPoly s
  | .keygen => Sys2Proof.Machine.execKeygen s
  | .aeadEnc => Sys2Proof.Machine.execAeadEnc s
  | .aeadDec => Sys2Proof.Machine.execAeadDec s

end Sys2Proof.Machine
end

