-- ==== Sys2Proof/Machine/HostBus.lean ====
section
/-! DEFINITION. The host's side: the register map (10_state.md R22 to R42), the host window (20_memory.md R63, R64), and one host
transaction (R66 to R70, 10_state.md R46 to R48). -/

namespace Sys2Proof.Machine

/-- The registers of R22. -/
inductive Reg where
  | id
  | bufsize
  | ctrl
  | status
  | cmd
  | counter
  | src
  | dst
  | len
  | aad
  | aadLen
  | key (i : Fin 8)
  | nonce (i : Fin 3)
  | tag (i : Fin 4)
  | pkey (i : Fin 8)
  | state (i : Fin 16)
deriving DecidableEq, Repr

/-- The offset of a register (R22). -/
def Reg.offset : Reg → Nat
  | .id => 0x000
  | .bufsize => 0x004
  | .ctrl => 0x008
  | .status => 0x00C
  | .cmd => 0x010
  | .counter => 0x014
  | .src => 0x018
  | .dst => 0x01C
  | .len => 0x020
  | .aad => 0x024
  | .aadLen => 0x028
  | .key i => 0x040 + 4 * i.val
  | .nonce i => 0x060 + 4 * i.val
  | .tag i => 0x070 + 4 * i.val
  | .pkey i => 0x080 + 4 * i.val
  | .state i => 0x0C0 + 4 * i.val

/-- Every register of R22. -/
def allRegs : List Reg :=
  [.id, .bufsize, .ctrl, .status, .cmd, .counter, .src, .dst, .len, .aad, .aadLen]
    ++ (List.finRange 8).map .key ++ (List.finRange 3).map .nonce ++ (List.finRange 4).map .tag
    ++ (List.finRange 8).map .pkey ++ (List.finRange 16).map .state

/-- The register at an offset of the register window, `none` where R22 maps nothing. -/
def regAt (off : Nat) : Option Reg := allRegs.find? fun r => r.offset == off

/-- What an offset of the host window names (R64). -/
inductive Location where
  | reg (r : Reg)
  | buffer (o : Nat)
  | unmapped
deriving DecidableEq, Repr

/-- The map of R64: registers below 0x10000, the buffer from 0x10000, nothing else. -/
def locate (bufBytes off : Nat) : Location :=
  if off < 0x10000 then
    match regAt off with
    | some r => .reg r
    | none => .unmapped
  else if off < 0x10000 + bufBytes then .buffer (off - 0x10000)
  else .unmapped

/-- ID always reads `0x0C201305` (R24). -/
def idValue : Word := 0x0C201305#32

/-- The current value of a register (R24 to R40). -/
def readReg (r : Reg) (s : State) : Word :=
  match r with
  | .id => idValue
  | .bufsize => BitVec.ofNat 32 s.cfg.bufBytes
  | .ctrl => ctrlWord s
  | .status => statusWord s
  | .cmd => s.cmd
  | .counter => s.counter
  | .src => s.src
  | .dst => s.dst
  | .len => s.len
  | .aad => s.aad
  | .aadLen => s.aadLen
  | .key i => s.key[i]
  | .nonce i => s.nonce[i]
  | .tag i => s.tag[i]
  | .pkey i => s.pkey[i]
  | .state i => s.state[i]

/-- A host write of a register that takes effect. A write to a read-only register is ignored (R42); a write to CMD issues the
word as a command (R32, R44). -/
def writeReg (r : Reg) (v : Word) (s : State) : State :=
  match r with
  | .id => s
  | .bufsize => s
  | .ctrl => writeCtrl v s
  | .status => writeStatus v s
  | .cmd => issue v s
  | .counter => { s with counter := v }
  | .src => { s with src := v }
  | .dst => { s with dst := v }
  | .len => { s with len := v }
  | .aad => { s with aad := v }
  | .aadLen => { s with aadLen := v }
  | .key i => { s with key := s.key.set i v }
  | .nonce i => { s with nonce := s.nonce.set i v }
  | .tag _ => s
  | .pkey i => { s with pkey := s.pkey.set i v }
  | .state i => { s with state := s.state.set i v }

/-- `le_int(MemRead(o, 4))` (R66). -/
def readBufWord (o : Nat) (s : State) : Word := BitVec.ofNat 32 (leInt (Memory.readBytes s.buf o 4))

/-- `BUF[o + k] <- v[8k+7 : 8k]` for k = 0..3 (R66). -/
def writeBufWord (o : Nat) (v : Word) (s : State) : State := memWrite o (wordBytes v) s

/-- CTRL and STATUS: the only locations a host write reaches while BUSY (R46). -/
def writableWhileBusy : Location → Bool
  | .reg .ctrl => true
  | .reg .status => true
  | .reg _ => false
  | .buffer _ => false
  | .unmapped => false

/-- STATE, PKEY, TAG and the buffer window: what a read returns while BUSY is unspecified (R47). -/
def drawnWhileBusy : Location → Bool
  | .reg (.state _) => true
  | .reg (.pkey _) => true
  | .reg (.tag _) => true
  | .reg _ => false
  | .buffer _ => true
  | .unmapped => false

/-- The value of a mapped location; 0 where nothing is mapped (R69). -/
def readLocation (l : Location) (s : State) : Word :=
  match l with
  | .reg r => readReg r s
  | .buffer o => readBufWord o s
  | .unmapped => 0

/-- A host write to a location that takes effect. -/
def writeLocation (l : Location) (v : Word) (s : State) : State :=
  match l with
  | .reg r => writeReg r v s
  | .buffer o => writeBufWord o v s
  | .unmapped => s

/-- The access moves exactly one 32-bit word at a word-aligned offset, all four byte enables set for a write (R67, R68). -/
def Access.wf : Access → Bool
  | .read off width => decide (width = .word) && off.toNat % 4 == 0
  | .write off width enables _ => decide (width = .word) && enables == 0xF#4 && off.toNat % 4 == 0

/-- The host-window offset of an access. -/
def Access.offset : Access → Nat
  | .read off _ => off.toNat
  | .write off _ _ _ => off.toNat

/-- The access gets an ERROR response: ill-formed (R67, R68) or unmapped (R69). -/
def busError (a : Access) (s : State) : Bool :=
  !a.wf || decide (locate s.cfg.bufBytes a.offset = .unmapped)

/-- The bus response to an access, recorded for the host (log 6). -/
def respond (status : BusStatus) (data : Option Word) (s : State) : State :=
  { s with resp := some { status := status, data := data } }

/-- A host write dropped while BUSY sets WDROP (10_state.md R31, R46). -/
def dropWrite (s : State) : State := { s with wdrop := true }

/-- One more free draw was made (log 3). -/
def countDraw (s : State) : State := { s with draws := s.draws + 1 }

/-- A host read: ERROR and 0 (R67 to R69, D4; log 10); else OKAY with a free draw where R47 says so, else the current value. A
read changes no state of the block (R48). -/
def hostRead (a : Access) (s : State) : State :=
  let l := locate s.cfg.bufBytes a.offset
  if busError a s then respond .error (some 0) s
  else if s.busy && drawnWhileBusy l then
    respond .okay (some (Config.busyRead s.draws)) (countDraw s)
  else respond .okay (some (readLocation l s)) s

/-- A host write: ERROR and no effect (R67 to R69); else OKAY, dropped with WDROP set while BUSY except for CTRL and STATUS
(R46), else it takes effect. -/
def hostWrite (a : Access) (v : Word) (s : State) : State :=
  let l := locate s.cfg.bufBytes a.offset
  if busError a s then respond .error none s
  else if s.busy && !writableWhileBusy l then respond .okay none (dropWrite s)
  else respond .okay none (writeLocation l v s)

/-- One host transaction. -/
def hostAccess (a : Access) (s : State) : State :=
  match a with
  | .read _ _ => hostRead a s
  | .write _ _ _ v => hostWrite a v s

end Sys2Proof.Machine
end

