-- ==== Sys2Proof/Machine/Reset.lean ====
section
/-! DEFINITION. The reset input `rst_n` (70_reset_and_hazards.md R200 to R203, 10_state.md R50). -/

namespace Sys2Proof.Machine

/-- The buffer after a reset while powered: unchanged, except that the destination region of a pending STREAM, AEAD_ENC or
AEAD_DEC is unspecified (R50, R202; log 4). -/
def bufAfterReset (s : State) : Memory :=
  match s.pending with
  | some i =>
    if writesDst i then
      Memory.writeBytes s.buf (dstRegion s).off
        ((List.range (dstRegion s).len).map fun k => Config.abandonedByte s.draws ((dstRegion s).off + k))
    else s.buf
  | none => s.buf

/-- `rst_n` is asserted: every register takes its value of R50, a pending command is abandoned (R200, R202). The parameters, the
coming inputs and the last response are not the block's registers (log 9). -/
def assertReset (s : State) : State :=
  { State.reset with
    cfg := s.cfg
    inReset := true
    buf := bufAfterReset s
    inputs := s.inputs
    resp := s.resp
    draws := s.draws + 1 }

/-- `rst_n` is released: the block is idle and ready for a host transaction (R200). -/
def releaseReset (s : State) : State := { s with inReset := false }

end Sys2Proof.Machine
end

