-- ==== Sys2Proof/Machine/Engine.lean ====
section
/-! DEFINITION. Who moves: the engine's one step and the inputs from outside (10_state.md R21, R45; log 5). -/

namespace Sys2Proof.Machine

/-- The engine's step: the completion of the pending command, enabled only while BUSY = 1 (R21, R45); idle, the engine does
nothing (60_exceptions.md R177). -/
def engineStep (s : State) : Host.Outcome State Fault Refusal :=
  match s.pending with
  | some i => exec i s
  | none => .next s

/-- One input. A host transaction while `rst_n` is asserted has no meaning (R203). -/
def takeInput (e : Input) (s : State) : Host.Outcome State Fault Refusal :=
  match e with
  | .host a => if s.inReset then .refused .hostAccessDuringReset else .next (hostAccess a s)
  | .engine => engineStep s
  | .resetAssert => .next (assertReset s)
  | .resetRelease => .next (releaseReset s)

/-- The inputs still to come. -/
def setInputs (l : List Input) (s : State) : State := { s with inputs := l }

/-- The next move: the first input still to come; with none left the engine, whose step is eventually taken (R204). -/
def moveNext (s : State) : Host.Outcome State Fault Refusal :=
  match s.inputs with
  | [] => engineStep s
  | e :: rest => takeInput e (setInputs rest s)

/-- The state in which the word `v` has been issued and accepted as a command and the engine's turn is next: CMD holds it, its
command is pending, the report is cleared as the issue clears it (R44), `rst_n` is released and no input stands before the
engine's step (log 5). -/
def withIssuedWord (v : Word) (s : State) : State :=
  { clearReport s with
    cmd := v
    pending :=
      match decode v with
      | .ok i => some i
      | .error _ => none
    inReset := false
    inputs := [] }

end Sys2Proof.Machine
end

