-- ==== Sys2Proof/Machine/Step.lean ====
section
/-! DEFINITION. One step of the block, and the placing of a command word where the next step runs it. -/

namespace Sys2Proof.Machine

/-- One step of the block. -/
def step (s : State) : Host.Outcome State Fault Refusal := moveNext s

/-- `s` with the row's word issued, so that the next step runs exactly that command (log 5). -/
def State.withFetchWord (s : State) (nbits w : Nat) : State := withIssuedWord (tableWord nbits w) s

end Sys2Proof.Machine
end

