-- ==== Sys2Proof/Machine/HostProgram.lean ====
section
/-! DEFINITION. Host programs: the host instructions of 30_encoding.md R86 as bus transactions, the pseudo-instructions of R87 as lists of
them, and programs with the loop WAIT and the record of what they read, run under a schedule of turns (log 12). -/

namespace Sys2Proof.Machine

/-- `WR` at a host-window offset: (W, offset, v). DESIGN CHOICE (log 15): the spec says nothing of an offset of 2^17 or more, which lies
outside the host window; only its low 17 bits reach the bus, so the access falls back into the window. -/
def wrAt (off : Nat) (v : Word) : Access := .write (BitVec.ofNat 17 off) .word 0xF#4 v

/-- `RD` at a host-window offset: (R, offset). DESIGN CHOICE (log 15): as for `wrAt`, an offset of 2^17 or more is cut to 17 bits. -/
def rdAt (off : Nat) : Access := .read (BitVec.ofNat 17 off) .word

/-- `WR reg, v`. -/
def wr (r : Reg) (v : Word) : Access := wrAt r.offset v

/-- `RD reg`. -/
def rd (r : Reg) : Access := rdAt r.offset

/-- `WRB o, v`: (W, 0x10000 + o, v). DESIGN CHOICE (log 15): no buffer reaches o ≥ 0x10000; the offset is cut to 17 bits, so for o
from 0x10000 to 0x1FFFF the access lands on the register window at o − 0x10000. -/
def wrb (o : Nat) (v : Word) : Access := wrAt (0x10000 + o) v

/-- `RDB o`: (R, 0x10000 + o). DESIGN CHOICE (log 15): as for `wrb` when o ≥ 0x10000. -/
def rdb (o : Nat) : Access := rdAt (0x10000 + o)

/-- `QR a, b, c, d`, `BLOCK`, …: a write of the command's word to CMD (R87). -/
def command (i : Instr) : Access := wr .cmd (encode i)

/-- `ACK`: `WR STATUS, 0x0000000E`. -/
def ack : Access := wr .status 0x0000000E#32

/-- The value read from STATUS ends a `WAIT`: bit 0 (BUSY) = 0. -/
def waitOver (v : Word) : Bool := !v.getLsbD 0

/-- `SETKEY k0, ..., k7`. -/
def setKey (k : Vector Word 8) : List Access := (List.finRange 8).map fun i => wr (.key i) k[i]

/-- `SETNONCE n0, n1, n2`. -/
def setNonce (n : Vector Word 3) : List Access := (List.finRange 3).map fun i => wr (.nonce i) n[i]

/-- `LOADB o, hh...`: one `WRB` per 4-byte group, the last padded with 0x00. DESIGN CHOICE (log 15): a group at 0x10000 or
above is written where `wrb` says. -/
def loadb (o : Nat) (m : List Byte) : List Access :=
  (List.range ((m.length + 3) / 4)).map fun i =>
    wrb (o + 4 * i) (BitVec.ofNat 32 (leInt (slice m (4 * i) (4 * i + 4) ++ zeros (4 - (slice m (4 * i) (4 * i + 4)).length))))

/-! ### Programs with `WAIT` -/

/-- An instruction of a host program: one transaction, or `WAIT`, "repeat `RD STATUS` until the value read has bit 0 (BUSY) = 0". -/
inductive HostInstr where
  | access (a : Access)
  | wait
deriving DecidableEq, Repr

/-- The transaction the host performs at its turn: that of the instruction, or a read of STATUS for `WAIT`. -/
def HostInstr.transaction : HostInstr → Access
  | .access a => a
  | .wait => rd .status

/-- The value a transaction read: a read's response carries one, a write's carries none (R48). -/
def valueRead (r : Option Response) : Option Word := r.bind Response.data

/-- The instruction is over with this response: a transaction always, `WAIT` when the value read ends it. -/
def HostInstr.over (i : HostInstr) (r : Option Response) : Bool :=
  match i with
  | .access _ => true
  | .wait =>
    match valueRead r with
    | some v => waitOver v
    | none => false

/-- A list of transactions as a program. -/
def program (as : List Access) : List HostInstr := as.map .access

/-- `RUN cmd`: the command, then `WAIT`. -/
def runCmd (i : Instr) : List HostInstr := [.access (command i), .wait]

/-- A host program on its way: the instructions that are left, the values it has recorded, oldest first ("the program records the
value", R86), and the block it runs on. -/
structure Running where
  left : List HostInstr
  recorded : List Word
  block : State
deriving DecidableEq, Repr

/-- A program before its first instruction: nothing is recorded. -/
def Running.start (p : List HostInstr) (s : State) : Running := { left := p, recorded := [], block := s }

/-- What the block does with one input, seen from the program. -/
def Running.input (e : Input) (r : Running) : Host.Outcome Running Fault Refusal :=
  match takeInput e r.block with
  | .next t => .next { r with block := t }
  | .fault f => .fault f
  | .refused f => .refused f

/-- The transaction of `i` is done: the program records the value read, if it was a read (R86; DEDUCED for `RDB`, log 12), and moves
past `i` when `i` is over. -/
def Running.advance (i : HostInstr) (p : List HostInstr) (r : Running) : Running :=
  { r with
    left := if i.over r.block.resp then p else i :: p
    recorded := r.recorded ++ (valueRead r.block.resp).toList }

/-- Whose turn it is while a host program runs (log 12). -/
inductive Turn where
  | host
  | engine
deriving DecidableEq, Repr

/-- One turn: the engine's, or one transaction of the host, so that `WAIT` polls once a turn. A host with no program left does
nothing. -/
def Running.turn (t : Turn) (r : Running) : Host.Outcome Running Fault Refusal :=
  match t with
  | .engine => r.input .engine
  | .host =>
    match r.left with
    | [] => .next r
    | i :: p =>
      match r.input (.host i.transaction) with
      | .next u => .next (u.advance i p)
      | .fault f => .fault f
      | .refused f => .refused f

/-- A host program run under a schedule of turns. -/
def runProgram : List Turn → Running → Host.Outcome Running Fault Refusal
  | [], r => .next r
  | t :: ts, r =>
    match r.turn t with
    | .next u => runProgram ts u
    | .fault f => .fault f
    | .refused f => .refused f

end Sys2Proof.Machine
end

