-- ==== Sys2Proof/Safety.lean ====
section
/-! DEFINITION. What holds of the block in every state a run reaches: the invariant of the claims. -/

namespace Sys2Proof.Machine

/-- The error codes the block produces: "every other value is reserved and never produced" (60_exceptions.md R160), 0x01 to 0x03
"never raised" (R162). -/
def ErrCode.raised : ErrCode → Bool
  | .invalidKeySize => false
  | .invalidNonceSize => false
  | .invalidStateSize => false
  | .counterOverflow => true
  | .illegalCmd => true
  | .indexAlias => true
  | .range => true
  | .overlap => true

/-- The registers of 10_state.md R50 hold their values after reset. -/
structure State.RegistersReset (s : State) : Prop where
  irqEn : s.irqEn = false
  pending : s.pending = none
  done : s.done = false
  error : s.error = none
  wdrop : s.wdrop = false
  cmd : s.cmd = 0
  counter : s.counter = 0
  src : s.src = 0
  dst : s.dst = 0
  len : s.len = 0
  aad : s.aad = 0
  aadLen : s.aadLen = 0
  key : s.key = Vector.replicate 8 0
  nonce : s.nonce = Vector.replicate 3 0
  tag : s.tag = Vector.replicate 4 0
  pkey : s.pkey = Vector.replicate 8 0
  state : s.state = Vector.replicate 16 0

/-- The invariant of the block: a legal buffer size (R9), the buffer in canonical form and inside its bounds (R60), a pending
command that is the one CMD holds and that passed its checks (R44, R49) with DONE = 0 and ERR = 0 (R28), only codes the block
raises (R160), and reset values while `rst_n` is asserted (R200). -/
structure State.Inv (s : State) : Prop where
  cfgWf : s.cfg.wf = true
  bufWf : Memory.wf s.buf
  bufWithin : Memory.within s.cfg.bufBytes s.buf
  pendingIsCmd : ∀ i, s.pending = some i → decode s.cmd = .ok i
  pendingValid : ∀ i, s.pending = some i → validate i s = none
  busyReport : s.busy = true → s.done = false ∧ s.error = none
  errorRaised : ∀ e, s.error = some e → e.raised = true
  heldInReset : s.inReset = true → s.RegistersReset

end Sys2Proof.Machine
end

