-- ==== Sys2Proof/Certificates/Slice0/Obligations.lean ====
section
/-! DEFINITION. The statements for the provers, and the few predicates they are written with. -/

namespace Sys2Proof.Claims

open Sys2Proof.Machine

/-- Four indices are pairwise distinct. -/
abbrev Distinct4 {α : Type} (a b c d : α) : Prop := a ≠ b ∧ a ≠ c ∧ a ≠ d ∧ b ≠ c ∧ b ≠ d ∧ c ≠ d

/-- The spans [x, x + n) and [y, y + m) overlap, in the words of 60_exceptions.md R165. -/
abbrev SpansOverlap (x n y m : Nat) : Prop := n > 0 ∧ m > 0 ∧ x < y + m ∧ y < x + n

/-- SRC + LEN, DST + LEN, AAD + AADLEN lie in the buffer (R164). -/
abbrev SrcFits (s : State) : Prop := s.src.toNat + s.len.toNat ≤ s.cfg.bufBytes
abbrev DstFits (s : State) : Prop := s.dst.toNat + s.len.toNat ≤ s.cfg.bufBytes
abbrev AadFits (s : State) : Prop := s.aad.toNat + s.aadLen.toNat ≤ s.cfg.bufBytes

/-- The destination partly overlaps the source (R165). -/
abbrev SrcDstOverlap (s : State) : Prop :=
  s.src ≠ s.dst ∧ SpansOverlap s.src.toNat s.len.toNat s.dst.toNat s.len.toNat

/-- The associated-data region overlaps the destination (R165). -/
abbrev AadDstOverlap (s : State) : Prop := SpansOverlap s.aad.toNat s.aadLen.toNat s.dst.toNat s.len.toNat

/-- STREAM is accepted: the checks of 40_chacha20.md R108. -/
def StreamAccepted (s : State) : Prop :=
  SrcFits s ∧ DstFits s ∧ ¬ SrcDstOverlap s ∧ s.len.toNat ≤ (2 ^ 32 - s.counter.toNat) * 64

/-- AEAD_ENC and AEAD_DEC are accepted: the checks of 42_aead.md R145. -/
def AeadAccepted (s : State) : Prop :=
  SrcFits s ∧ DstFits s ∧ AadFits s ∧ ¬ SrcDstOverlap s ∧ ¬ AadDstOverlap s ∧ s.len.toNat ≤ (2 ^ 32 - 1) * 64

/-- The status a command that finishes leaves: BUSY = 0, DONE = 1 (10_state.md R45). -/
def finished (s : State) : State := { s with pending := none, done := true }

/-- The status a refused command leaves: BUSY = 0, DONE = 1, ERR = 1 with its code (60_exceptions.md R167). -/
def refusedWith (e : ErrCode) (s : State) : State := { s with pending := none, done := true, error := some e }

/-- The steps of 40_chacha20.md R100 as they stand there: twelve assignments to the list, in order. -/
def quarterRoundSteps (s : Vector Word 16) (a b c d : Fin 16) : Vector Word 16 :=
  let s := s.set a (s[a] + s[b])
  let s := s.set d (s[d] ^^^ s[a])
  let s := s.set d (rotl32 s[d] 16)
  let s := s.set c (s[c] + s[d])
  let s := s.set b (s[b] ^^^ s[c])
  let s := s.set b (rotl32 s[b] 12)
  let s := s.set a (s[a] + s[b])
  let s := s.set d (s[d] ^^^ s[a])
  let s := s.set d (rotl32 s[d] 8)
  let s := s.set c (s[c] + s[d])
  let s := s.set b (s[b] ^^^ s[c])
  s.set b (rotl32 s[b] 7)

/-- `Validate(v)` of 60_exceptions.md R163 written over the bits of the word and the raw registers. -/
def validateByRule (v : Word) (s : State) : Option ErrCode :=
  let op := (v.extractLsb' 0 4).toNat
  if ¬ (v &&& 0xFF0000FF#32 = 1#32 ∨ v = 2#32 ∨ v = 3#32 ∨ v = 4#32 ∨ v = 5#32 ∨ v = 6#32 ∨ v = 7#32) then some .illegalCmd
  else if op = 1 ∧ ¬ Distinct4 (v.extractLsb' 8 4) (v.extractLsb' 12 4) (v.extractLsb' 16 4) (v.extractLsb' 20 4) then
    some .indexAlias
  else if (op = 3 ∨ op = 4 ∨ op = 6 ∨ op = 7) ∧ ¬ SrcFits s then some .range
  else if (op = 3 ∨ op = 6 ∨ op = 7) ∧ ¬ DstFits s then some .range
  else if (op = 6 ∨ op = 7) ∧ ¬ AadFits s then some .range
  else if (op = 3 ∨ op = 6 ∨ op = 7) ∧ SrcDstOverlap s then some .overlap
  else if (op = 6 ∨ op = 7) ∧ AadDstOverlap s then some .overlap
  else if op = 3 ∧ s.len.toNat > (2 ^ 32 - s.counter.toNat) * 64 then some .counterOverflow
  else if (op = 6 ∨ op = 7) ∧ s.len.toNat > (2 ^ 32 - 1) * 64 then some .counterOverflow
  else none

/-- The registers a host write simply stores into: all RW registers of 10_state.md R22 but CTRL, and not CMD. -/
def storesPlainly : Reg → Bool
  | .id => false
  | .bufsize => false
  | .ctrl => false
  | .status => false
  | .cmd => false
  | .counter => true
  | .src => true
  | .dst => true
  | .len => true
  | .aad => true
  | .aadLen => true
  | .key _ => true
  | .nonce _ => true
  | .tag _ => false
  | .pkey _ => true
  | .state _ => true

/-- The read-only registers of 10_state.md R42. -/
def readOnly : Reg → Bool
  | .id => true
  | .bufsize => true
  | .ctrl => false
  | .status => false
  | .cmd => false
  | .counter => false
  | .src => false
  | .dst => false
  | .len => false
  | .aad => false
  | .aadLen => false
  | .key _ => false
  | .nonce _ => false
  | .tag _ => true
  | .pkey _ => false
  | .state _ => false

/-- The registers whose reads are unspecified while BUSY (10_state.md R47). -/
def unspecifiedWhileBusy : Reg → Bool
  | .id => false
  | .bufsize => false
  | .ctrl => false
  | .status => false
  | .cmd => false
  | .counter => false
  | .src => false
  | .dst => false
  | .len => false
  | .aad => false
  | .aadLen => false
  | .key _ => false
  | .nonce _ => false
  | .tag _ => true
  | .pkey _ => true
  | .state _ => true

/-- The state after a list of host transactions. -/
def afterAccesses (as : List Access) (s : State) : State := as.foldl (fun s a => hostAccess a s) s

end Sys2Proof.Claims

open Sys2Proof Sys2Proof.Machine Sys2Proof.Claims

/-! ### Encoding (30_encoding.md) -/

/-- Decoding the word of any command gives the command back, every operand at every value (R80 to R82, R85). -/
def Obligations.DecodeOfEncode : Prop := ∀ i : Instr, decode (encode i) = .ok i

/-- A command has one word only: a word that decodes to a command is the word the encoder writes (R82, R84). -/
def Obligations.EncodeOfDecode : Prop := ∀ (v : Word) (i : Instr), decode v = .ok i → encode i = v

/-- R83: a word is no command exactly when one of the five conditions holds, its issue is refused with ILLEGAL_CMD; a write of
zero never starts a command; an aliased QR word is legal in encoding and refused with INDEX_ALIAS. -/
def Obligations.IllegalWordsRefused : Prop :=
  (∀ v : Word, (∃ i, decode v = .ok i) ↔
    ¬ ((v.extractLsb' 0 4).toNat = 0 ∨ 8 ≤ (v.extractLsb' 0 4).toNat ∨ v.extractLsb' 4 4 ≠ 0#4 ∨ v.extractLsb' 24 8 ≠ 0#8 ∨
      ((v.extractLsb' 0 4).toNat ≠ 1 ∧ v.extractLsb' 8 16 ≠ 0#16))) ∧
  (∀ (v : Word) (s : State), (¬ ∃ i, decode v = .ok i) → issue v s = { refusedWith .illegalCmd s with cmd := v }) ∧
  (∀ s : State, issue 0 s = { refusedWith .illegalCmd s with cmd := 0 }) ∧
  (∀ (a b c d : BitVec 4) (s : State), ¬ Distinct4 a b c d →
    decode (encode (.qr a b c d)) = .ok (.qr a b c d) ∧
    issue (encode (.qr a b c d)) s = { refusedWith .indexAlias s with cmd := encode (.qr a b c d) })

/-- R85: the value of a QR word, and the two words the rule writes out. -/
def Obligations.QrWordValue : Prop :=
  (∀ a b c d : BitVec 4, (encode (.qr a b c d)).toNat =
    0x00000001 + a.toNat * 2 ^ 8 + b.toNat * 2 ^ 12 + c.toNat * 2 ^ 16 + d.toNat * 2 ^ 20) ∧
  encode (.qr 0 4 8 12) = 0x00C84001#32 ∧ encode (.qr 3 4 9 14) = 0x00E94301#32

/-- The words the spec writes out decode to the commands they stand for, one of every family (R82, R85, R106). -/
def Obligations.WrittenWordsDecode : Prop :=
  decode 0x00C84001#32 = .ok (.qr 0 4 8 12) ∧ decode 0x00E94301#32 = .ok (.qr 3 4 9 14) ∧
  decode 0x00321001#32 = .ok (.qr 0 1 2 3) ∧ decode 0x00000002#32 = .ok .block ∧ decode 0x00000003#32 = .ok .stream ∧
  decode 0x00000004#32 = .ok .poly ∧ decode 0x00000005#32 = .ok .keygen ∧ decode 0x00000006#32 = .ok .aeadEnc ∧
  decode 0x00000007#32 = .ok .aeadDec

/-! ### Registers and the host window (10_state.md, 20_memory.md) -/

/-- R64: each register of R22 at its offset, everything else below 0x10000 unmapped, byte o of the buffer at 0x10000 + o for
BUF_BYTES bytes, and everything above it unmapped. -/
def Obligations.HostWindowMap : Prop :=
  (∀ n : Nat,
    locate n 0x000 = .reg .id ∧ locate n 0x004 = .reg .bufsize ∧ locate n 0x008 = .reg .ctrl ∧
    locate n 0x00C = .reg .status ∧ locate n 0x010 = .reg .cmd ∧ locate n 0x014 = .reg .counter ∧
    locate n 0x018 = .reg .src ∧ locate n 0x01C = .reg .dst ∧ locate n 0x020 = .reg .len ∧
    locate n 0x024 = .reg .aad ∧ locate n 0x028 = .reg .aadLen ∧
    (∀ i : Fin 8, locate n (0x040 + 4 * i.val) = .reg (.key i)) ∧
    (∀ i : Fin 3, locate n (0x060 + 4 * i.val) = .reg (.nonce i)) ∧
    (∀ i : Fin 4, locate n (0x070 + 4 * i.val) = .reg (.tag i)) ∧
    (∀ i : Fin 8, locate n (0x080 + 4 * i.val) = .reg (.pkey i)) ∧
    (∀ i : Fin 16, locate n (0x0C0 + 4 * i.val) = .reg (.state i))) ∧
  (∀ (n off off' : Nat) (r : Reg), locate n off = .reg r → locate n off' = .reg r → off = off') ∧
  (∀ n off : Nat, off < 0x10000 → (∃ r, locate n off = .reg r) ∨ locate n off = .unmapped) ∧
  (∀ n o : Nat, o < n → locate n (0x10000 + o) = .buffer o) ∧
  (∀ n off : Nat, 0x10000 + n ≤ off → locate n off = .unmapped)

/-- R24, R25: a host read of ID returns 0x0C201305 and of BUFSIZE the buffer size, in every state, busy or not. -/
def Obligations.IdentificationReads : Prop :=
  ∀ s : State, s.cfg.wf = true →
    (hostAccess (rd .id) s).resp = some { status := .okay, data := some 0x0C201305#32 } ∧
    ∃ v : Word, (hostAccess (rd .bufsize) s).resp = some { status := .okay, data := some v } ∧ v.toNat = s.cfg.bufBytes

/-- While idle, a host write of a plain register stores the word in that register's own field, word i of a register file in its word
i, and changes nothing else; a host read of CMD, COUNTER, SRC, DST, LEN, AAD, AADLEN, KEY or NONCE, busy or not, and of TAG, PKEY or
STATE while idle, returns the register's own field (R32 to R40). So a word written is what the next read of the register returns, and
every other register and every buffer byte is unchanged (R72). -/
def Obligations.RegisterReadback : Prop :=
  (∀ (s : State) (v : Word), s.busy = false →
    hostAccess (wr .counter v) s = { s with counter := v, resp := some { status := .okay, data := none } } ∧
    hostAccess (wr .src v) s = { s with src := v, resp := some { status := .okay, data := none } } ∧
    hostAccess (wr .dst v) s = { s with dst := v, resp := some { status := .okay, data := none } } ∧
    hostAccess (wr .len v) s = { s with len := v, resp := some { status := .okay, data := none } } ∧
    hostAccess (wr .aad v) s = { s with aad := v, resp := some { status := .okay, data := none } } ∧
    hostAccess (wr .aadLen v) s = { s with aadLen := v, resp := some { status := .okay, data := none } } ∧
    (∀ i : Fin 8, hostAccess (wr (.key i) v) s = { s with key := s.key.set i v, resp := some { status := .okay, data := none } }) ∧
    (∀ i : Fin 3, hostAccess (wr (.nonce i) v) s = { s with nonce := s.nonce.set i v, resp := some { status := .okay, data := none } }) ∧
    (∀ i : Fin 8, hostAccess (wr (.pkey i) v) s = { s with pkey := s.pkey.set i v, resp := some { status := .okay, data := none } }) ∧
    (∀ i : Fin 16, hostAccess (wr (.state i) v) s = { s with state := s.state.set i v, resp := some { status := .okay, data := none } })) ∧
  (∀ s : State,
    (hostAccess (rd .cmd) s).resp = some { status := .okay, data := some s.cmd } ∧
    (hostAccess (rd .counter) s).resp = some { status := .okay, data := some s.counter } ∧
    (hostAccess (rd .src) s).resp = some { status := .okay, data := some s.src } ∧
    (hostAccess (rd .dst) s).resp = some { status := .okay, data := some s.dst } ∧
    (hostAccess (rd .len) s).resp = some { status := .okay, data := some s.len } ∧
    (hostAccess (rd .aad) s).resp = some { status := .okay, data := some s.aad } ∧
    (hostAccess (rd .aadLen) s).resp = some { status := .okay, data := some s.aadLen } ∧
    (∀ i : Fin 8, (hostAccess (rd (.key i)) s).resp = some { status := .okay, data := some s.key[i] }) ∧
    (∀ i : Fin 3, (hostAccess (rd (.nonce i)) s).resp = some { status := .okay, data := some s.nonce[i] })) ∧
  (∀ s : State, s.busy = false →
    (∀ i : Fin 4, (hostAccess (rd (.tag i)) s).resp = some { status := .okay, data := some s.tag[i] }) ∧
    (∀ i : Fin 8, (hostAccess (rd (.pkey i)) s).resp = some { status := .okay, data := some s.pkey[i] }) ∧
    (∀ i : Fin 16, (hostAccess (rd (.state i)) s).resp = some { status := .okay, data := some s.state[i] })) ∧
  ∀ (s : State) (r : Reg) (v : Word), s.busy = false → storesPlainly r = true →
    (hostAccess (rd r) (hostAccess (wr r v) s)).resp = some { status := .okay, data := some v } ∧
    (∀ q : Reg, q ≠ r → readReg q (hostAccess (wr r v) s) = readReg q s) ∧
    (∀ a : Nat, (hostAccess (wr r v) s).byteAt a = s.byteAt a)

/-- R66: while idle, a word written to buffer offset o is stored low byte first in four bytes, no other byte changes, no register
changes, and the next read of the offset returns it; a read returns the four bytes as a little-endian number. -/
def Obligations.BufferWordReadback : Prop :=
  ∀ (s : State) (o : Nat) (v : Word), s.cfg.wf = true → s.busy = false → o % 4 = 0 → o < s.cfg.bufBytes →
    (∀ k : Nat, k < 4 → (hostAccess (wrb o v) s).byteAt (o + k) = v.extractLsb' (8 * k) 8) ∧
    (∀ a : Nat, a < o ∨ o + 4 ≤ a → (hostAccess (wrb o v) s).byteAt a = s.byteAt a) ∧
    (∀ q : Reg, readReg q (hostAccess (wrb o v) s) = readReg q s) ∧
    (hostAccess (rdb o) (hostAccess (wrb o v) s)).resp = some { status := .okay, data := some v } ∧
    (hostAccess (rdb o) s).resp = some
      { status := .okay, data := some (BitVec.ofNat 32 (leInt [s.byteAt o, s.byteAt (o + 1), s.byteAt (o + 2), s.byteAt (o + 3)])) }

/-- R42: a host write to a read-only register or to a reserved field of CTRL or STATUS is ignored, with an OKAY response. -/
def Obligations.ReadOnlyWritesIgnored : Prop :=
  (∀ (s : State) (r : Reg) (v : Word), s.busy = false → readOnly r = true →
    hostAccess (wr r v) s = respond .okay none s) ∧
  (∀ (s : State) (r : Reg) (v : Word), readOnly r = true →
    (hostAccess (wr r v) s).resp = some { status := .okay, data := none } ∧
    readReg r (hostAccess (wr r v) s) = readReg r s) ∧
  (∀ (s : State) (v w : Word), v.getLsbD 0 = w.getLsbD 0 → hostAccess (wr .ctrl v) s = hostAccess (wr .ctrl w) s) ∧
  (∀ (s : State) (v w : Word), (∀ k, 1 ≤ k → k ≤ 3 → v.getLsbD k = w.getLsbD k) →
    hostAccess (wr .status v) s = hostAccess (wr .status w) s) ∧
  (∀ (s : State) (v : Word),
    (hostAccess (wr .ctrl v) s).resp = some { status := .okay, data := none } ∧
    (hostAccess (wr .status v) s).resp = some { status := .okay, data := none })

/-- R27, R160: the fields of the word a read of STATUS returns, the numbers of the error codes, and all of it 0 at reset. -/
def Obligations.StatusWordFields : Prop :=
  (∀ s : State,
    (statusWord s).getLsbD 0 = s.busy ∧ (statusWord s).getLsbD 1 = s.done ∧ (statusWord s).getLsbD 2 = s.err ∧
    (statusWord s).getLsbD 3 = s.wdrop ∧ (statusWord s).extractLsb' 4 4 = 0#4 ∧
    (statusWord s).extractLsb' 8 8 = s.errCode ∧ (statusWord s).extractLsb' 16 16 = 0#16 ∧
    s.err = s.error.isSome ∧ (s.error = none → s.errCode = 0x00#8) ∧
    (s.error = some .counterOverflow → s.errCode = 0x04#8) ∧ (s.error = some .illegalCmd → s.errCode = 0x05#8) ∧
    (s.error = some .indexAlias → s.errCode = 0x06#8) ∧ (s.error = some .range → s.errCode = 0x07#8) ∧
    (s.error = some .overlap → s.errCode = 0x08#8) ∧
    (hostAccess (rd .status) s).resp = some { status := .okay, data := some (statusWord s) }) ∧
  statusWord State.reset = 0

/-- R29 to R31: a host write of STATUS, busy or not, clears DONE by bit 1, ERR with ERRCODE by bit 2, WDROP by bit 3, leaves
each where its bit is 0, and changes nothing else. -/
def Obligations.StatusWriteOneToClear : Prop :=
  ∀ (s : State) (v : Word), hostAccess (wr .status v) s =
    { s with
      done := if v.getLsbD 1 then false else s.done
      error := if v.getLsbD 2 then none else s.error
      wdrop := if v.getLsbD 3 then false else s.wdrop
      resp := some { status := .okay, data := none } }

/-- R26: CTRL holds bit 0 alone, busy or not; the interrupt output follows DONE when it is 1 and is 0 when it is 0; reset 0. -/
def Obligations.CtrlRegister : Prop :=
  (∀ (s : State) (v : Word), hostAccess (wr .ctrl v) s =
    { s with irqEn := v.getLsbD 0, resp := some { status := .okay, data := none } }) ∧
  (∀ s : State, (hostAccess (rd .ctrl) s).resp =
    some { status := .okay, data := some (if s.irqEn then 1#32 else 0#32) }) ∧
  (∀ s : State, s.inReset = false → s.irqEn = true → s.irq = s.done) ∧
  (∀ s : State, s.irqEn = false → s.irq = false) ∧ ctrlWord State.reset = 0

/-- R44: a write of `v` to CMD while idle stores it, clears the old report, and either reports the error validation finds or makes
the command pending; WDROP and every other register are unchanged. -/
def Obligations.CommandIssue : Prop :=
  ∀ (s : State) (v : Word), s.busy = false →
    (∀ e, validateWord v s = some e →
      hostAccess (wr .cmd v) s = respond .okay none { refusedWith e s with cmd := v }) ∧
    (validateWord v s = none → ∃ i, decode v = .ok i ∧
      hostAccess (wr .cmd v) s = respond .okay none { s with cmd := v, pending := some i, done := false, error := none })

/-- R163: validation is the list of checks of the rule, in its order, over the word's bits and the raw registers. -/
def Obligations.ValidationOrder : Prop := ∀ (v : Word) (s : State), validateWord v s = validateByRule v s

/-- R165: two regions overlap exactly when some byte offset lies in both. -/
def Obligations.OverlapIsSharedByte : Prop :=
  ∀ r t : Region, r.overlaps t = true ↔ ∃ a, (r.off ≤ a ∧ a < r.off + r.len) ∧ (t.off ≤ a ∧ a < t.off + t.len)

/-- R46: while BUSY a write to a mapped word other than CTRL and STATUS is dropped with OKAY and sets WDROP; CTRL and STATUS take
the write as when idle; a write that gets an ERROR response does not set WDROP. -/
def Obligations.BusyWritesDropped : Prop :=
  (∀ (s : State) (r : Reg) (v : Word), s.busy = true → r ≠ .ctrl → r ≠ .status →
    hostAccess (wr r v) s = respond .okay none (dropWrite s)) ∧
  (∀ (s : State) (o : Nat) (v : Word), s.cfg.wf = true → s.busy = true → o % 4 = 0 → o < s.cfg.bufBytes →
    hostAccess (wrb o v) s = respond .okay none (dropWrite s)) ∧
  (∀ (s : State) (v : Word), s.busy = true →
    hostAccess (wr .ctrl v) s = respond .okay none (writeCtrl v s) ∧
    hostAccess (wr .status v) s = respond .okay none (writeStatus v s)) ∧
  (∀ (s : State) (a : Access), s.busy = true → busError a s = true → (hostAccess a s).wdrop = s.wdrop)

/-- R47: while BUSY a read of STATE, PKEY, TAG or the buffer returns the next free draw with OKAY and changes nothing else; a read
of every other register returns its current value. -/
def Obligations.BusyReadsDrawn : Prop :=
  (∀ (s : State) (r : Reg), s.busy = true → unspecifiedWhileBusy r = true →
    hostAccess (rd r) s = respond .okay (some (Config.busyRead s.draws)) (countDraw s)) ∧
  (∀ (s : State) (o : Nat), s.cfg.wf = true → s.busy = true → o % 4 = 0 → o < s.cfg.bufBytes →
    hostAccess (rdb o) s = respond .okay (some (Config.busyRead s.draws)) (countDraw s)) ∧
  (∀ (s : State) (r : Reg), s.busy = true → unspecifiedWhileBusy r = false →
    hostAccess (rd r) s = respond .okay (some (readReg r s)) s)

/-- R48: a host read of any offset and width changes no register and no buffer byte: only the response, and the count of draws. -/
def Obligations.ReadsHaveNoSideEffect : Prop :=
  ∀ (s : State) (off : BitVec 17) (width : Width),
    ∃ r d, hostAccess (.read off width) s = { s with resp := r, draws := d } ∧ (s.busy = false → d = s.draws)

/-- R67 to R69: an access that is not 32 bits wide with all byte enables, or misaligned, or at an unmapped offset gets an ERROR
response and nothing else changes, STATUS included; such a read returns 0 where it is of another width or unmapped. -/
def Obligations.BusErrorHasNoEffect : Prop :=
  (∀ (s : State) (off : BitVec 17) (width : Width),
    width ≠ .word ∨ locate s.cfg.bufBytes off.toNat = .unmapped →
    hostAccess (.read off width) s = { s with resp := some { status := .error, data := some 0 } }) ∧
  (∀ (s : State) (off : BitVec 17) (width : Width), off.toNat % 4 ≠ 0 →
    ∃ d, hostAccess (.read off width) s = { s with resp := some { status := .error, data := d } }) ∧
  (∀ (s : State) (off : BitVec 17) (width : Width) (en : BitVec 4) (v : Word),
    width ≠ .word ∨ en ≠ 0xF#4 ∨ off.toNat % 4 ≠ 0 ∨ locate s.cfg.bufBytes off.toNat = .unmapped →
    hostAccess (.write off width en v) s = { s with resp := some { status := .error, data := none } })

/-- `LOADB` (R87): run while idle, its transactions leave the string at the offset, the padding zero, and every byte outside the
padded string and every register as before. -/
def Obligations.LoadbPlacesString : Prop :=
  ∀ (s : State) (o : Nat) (m : List Byte), s.cfg.wf = true → s.busy = false → o % 4 = 0 →
    o + m.length ≤ s.cfg.bufBytes →
    (∀ (k : Nat) (h : k < m.length), (afterAccesses (loadb o m) s).byteAt (o + k) = m[k]) ∧
    (∀ k : Nat, m.length ≤ k → k < 4 * ((m.length + 3) / 4) → (afterAccesses (loadb o m) s).byteAt (o + k) = 0) ∧
    (∀ a : Nat, a < o ∨ o + 4 * ((m.length + 3) / 4) ≤ a → (afterAccesses (loadb o m) s).byteAt a = s.byteAt a) ∧
    (∀ q : Reg, readReg q (afterAccesses (loadb o m) s) = readReg q s)

/-! ### ChaCha20 family (40_chacha20.md) -/

/-- QR with pairwise distinct indices completes: STATE holds the quarter round, every other register and the buffer are
unchanged (R106). -/
def Obligations.QrCompletes : Prop :=
  ∀ (s : State) (a b c d : BitVec 4), Distinct4 a b c d →
    exec (.qr a b c d) s = .next (finished { s with state := quarterRound s.state a.toFin b.toFin c.toFin d.toFin })

/-- R100: the quarter round is the twelve assignments of the rule performed in order, and leaves the other twelve words; the rotation
in them is that of R12. -/
def Obligations.QuarterRoundSteps : Prop :=
  (∀ (x : Word) (n : Nat), 0 < n → n < 32 →
    (rotl32 x n).toNat = (x.toNat * 2 ^ n % 2 ^ 32) ||| (x.toNat / 2 ^ (32 - n))) ∧
  ∀ (x : Vector Word 16) (a b c d : Fin 16), Distinct4 a b c d →
    quarterRound x a b c d = quarterRoundSteps x a b c d ∧
    ∀ i : Fin 16, i ≠ a → i ≠ b → i ≠ c → i ≠ d → (quarterRound x a b c d)[i] = x[i]

/-- QR whose indices are not pairwise distinct reports INDEX_ALIAS and writes no output (R106, R161). The spec refuses at the issue; that
`exec` itself answers the report is the model's choice of log 8. -/
def Obligations.QrAliasReported : Prop :=
  ∀ (s : State) (a b c d : BitVec 4), ¬ Distinct4 a b c d → exec (.qr a b c d) s = .next (refusedWith .indexAlias s)

/-- BLOCK completes in every state: STATE holds the block words of KEY, COUNTER, NONCE, everything else unchanged (R107). -/
def Obligations.BlockCompletes : Prop :=
  ∀ s : State, exec .block s = .next (finished { s with state := blockWords s.key s.counter s.nonce })

/-- The block function (R102 to R104): ten double rounds of the initial state, which are the eight quarter rounds of R103, added to
it word by word, the words written out little-endian (R14); and the source's vector. -/
def Obligations.BlockFunctionByRounds : Prop :=
  (∀ (kw : Vector Word 8) (ctr : Word) (nw : Vector Word 3),
    ∃ x0 : Vector Word 16,
      x0.toList = [0x61707865#32, 0x3320646e#32, 0x79622d32#32, 0x6b206574#32] ++ kw.toList ++ [ctr] ++ nw.toList ∧
      (∀ (i : Nat) (h : i < 16), (blockWords kw ctr nw)[i] = x0[i] + (doubleRound^[10] x0)[i]) ∧
      block (wordsToBytes kw.toList) ctr (wordsToBytes nw.toList) = wordsToBytes (blockWords kw ctr nw).toList ∧
      (block (wordsToBytes kw.toList) ctr (wordsToBytes nw.toList)).length = 64) ∧
  (∀ x : Vector Word 16, doubleRound x =
    [(0, 4, 8, 12), (1, 5, 9, 13), (2, 6, 10, 14), (3, 7, 11, 15),
     (0, 5, 10, 15), (1, 6, 11, 12), (2, 7, 8, 13), (3, 4, 9, 14)].foldl
      (fun y (q : Fin 16 × Fin 16 × Fin 16 × Fin 16) => quarterRound y q.1 q.2.1 q.2.2.1 q.2.2.2) x) ∧
  (∀ (n : Nat) (w : Vector Word n),
    bytesToWords n (wordsToBytes w.toList) = w ∧
    ∀ (i : Nat) (hi : i < n) (j : Nat), j < 4 → (wordsToBytes w.toList)[4 * i + j]? = some (w[i].extractLsb' (8 * j) 8)) ∧
  (block (zeros 32) 0 (zeros 12)).take 8 = [0x76, 0xb8, 0xe0, 0xad, 0xa0, 0xf1, 0x3d, 0x90]

/-- STREAM whose checks pass completes: LEN bytes at DST hold the stream function of the source bytes, everything else is
unchanged (R108). -/
def Obligations.StreamCompletes : Prop :=
  ∀ s : State, StreamAccepted s →
    exec .stream s = .next (finished { s with
      buf := Memory.writeBytes s.buf s.dst.toNat
        (streamXor (wordsToBytes s.key.toList) s.counter (wordsToBytes s.nonce.toList)
          (Memory.readBytes s.buf s.src.toNat s.len.toNat)) })

/-- After an accepted STREAM, destination byte k is source byte k XOR byte k mod 64 of the block at counter COUNTER + k div 64, and
no byte outside the destination region has changed (R105, R108). -/
def Obligations.StreamBytes : Prop :=
  ∀ s : State, StreamAccepted s → ∃ t, exec .stream s = .next t ∧
    (∀ k : Nat, k < s.len.toNat → ∃ b : Byte,
      (wordsToBytes (blockWords s.key (s.counter + BitVec.ofNat 32 (k / 64)) s.nonce).toList)[k % 64]? = some b ∧
      s.counter.toNat + k / 64 < 2 ^ 32 ∧
      t.byteAt (s.dst.toNat + k) = s.byteAt (s.src.toNat + k) ^^^ b) ∧
    (∀ a : Nat, a < s.dst.toNat ∨ s.dst.toNat + s.len.toNat ≤ a → t.byteAt a = s.byteAt a)

/-- STREAM whose checks fail reports the first that applies, RANGE, then OVERLAP, then COUNTER_OVERFLOW, and writes nothing
(R108). The spec refuses at the issue; that `exec` itself answers the report is the model's choice of log 8. -/
def Obligations.StreamRefusals : Prop :=
  ∀ s : State,
    (¬ (SrcFits s ∧ DstFits s) → exec .stream s = .next (refusedWith .range s)) ∧
    (SrcFits s → DstFits s → SrcDstOverlap s → exec .stream s = .next (refusedWith .overlap s)) ∧
    (SrcFits s → DstFits s → ¬ SrcDstOverlap s → s.len.toNat > (2 ^ 32 - s.counter.toNat) * 64 →
      exec .stream s = .next (refusedWith .counterOverflow s))

/-- The stream function keeps the length and is its own inverse (R105). -/
def Obligations.StreamXorInvolution : Prop :=
  ∀ (key : List Byte) (ctr : Word) (nonce m : List Byte),
    (streamXor key ctr nonce m).length = m.length ∧ streamXor key ctr nonce (streamXor key ctr nonce m) = m

/-- R166: the counters STREAM needs all fit in 32 bits exactly when LEN ≤ (2^32 − COUNTER) × 64. -/
def Obligations.StreamCounterLimit : Prop :=
  ∀ s : State, counterOverflows .stream s = false ↔
    ∀ j : Nat, j < (s.len.toNat + 63) / 64 → s.counter.toNat + j ≤ 2 ^ 32 - 1

/-! ### Poly1305 family (41_poly1305.md) -/

/-- POLY whose source region lies in the buffer completes: TAG holds the MAC of the region under PKEY, everything else is
unchanged; else it reports RANGE and TAG is not written (R130). The spec refuses at the issue; that `exec` itself answers the report
is the model's choice of log 8. -/
def Obligations.PolyCompletes : Prop :=
  ∀ s : State,
    (SrcFits s → exec .poly s = .next (finished { s with
      tag := bytesToWords 4 (poly1305 (Memory.readBytes s.buf s.src.toNat s.len.toNat) (wordsToBytes s.pkey.toList)) })) ∧
    (¬ SrcFits s → exec .poly s = .next (refusedWith .range s))

/-- R120 to R126: the accumulator is 0 for the empty message and, chunk by chunk, ((a + n) * r) mod P with n the chunk's little-endian
value plus 2^(8L); s is bytes 16 to 31 of the key; the tag is the low 16 bytes of a + s; the little-endian numbers are those of R13.
The bounds of R126: the accumulator stays below P, the clamped r below 2^124, the sum with a chunk below P + 2^129, the product below 2^255,
the final sum below P + 2^128. -/
def Obligations.PolyDatapathBounds : Prop :=
  (∀ m : List Byte, leInt m = ∑ i ∈ Finset.range m.length, (m[i]!).toNat * 2 ^ (8 * i)) ∧
  (∀ n v : Nat, (leBytes n v).length = n ∧ leInt (leBytes n v) = v % 2 ^ (8 * n)) ∧
  (∀ k : List Byte, k.length = 32 → polyS k = leInt (k.drop 16)) ∧
  (∀ k : List Byte, polyAccumulator [] k = 0) ∧
  (∀ m c k : List Byte, m.length % 16 = 0 → 1 ≤ c.length → c.length ≤ 16 →
    polyAccumulator (m ++ c) k = (polyAccumulator m k + (leInt c + 2 ^ (8 * c.length))) * polyR k % (2 ^ 130 - 5)) ∧
  (∀ m k : List Byte, poly1305 m k = leBytes 16 (polyAccumulator m k + polyS k)) ∧
  (∀ m k : List Byte, polyAccumulator m k < 2 ^ 130 - 5 ∧ polyR k < 2 ^ 124 ∧
    polyAccumulator m k + polyS k < (2 ^ 130 - 5) + 2 ^ 128) ∧
  (∀ (a : Nat) (k c : List Byte), a < 2 ^ 130 - 5 → c.length ≤ 16 →
    a + chunkValue c < (2 ^ 130 - 5) + 2 ^ 129 ∧ (a + chunkValue c) * polyR k < 2 ^ 255 ∧ polyAccumulate (polyR k) a c < 2 ^ 130 - 5)

/-- R127: with an empty message, or with r = 0, the tag is the s half; with an all-zero key every tag is 16 zero bytes. -/
def Obligations.PolyCornerValues : Prop :=
  (∀ k : List Byte, poly1305 [] k = leBytes 16 (polyS k)) ∧
  (∀ m k : List Byte, polyR k = 0 → poly1305 m k = leBytes 16 (polyS k)) ∧
  (∀ m : List Byte, poly1305 m (zeros 32) = zeros 16)

/-- R122: the chunks of a message, joined, are the message; all have 16 bytes but the last, which has 1 to 16; a chunk of L bytes
counts as its little-endian value plus 2^(8L), between 2^(8L) and 2^(8L+1). -/
def Obligations.PolyChunksCoverMessage : Prop :=
  (∀ m : List Byte, (polyChunks m).flatten = m ∧ (polyChunks m).length = (m.length + 15) / 16 ∧
    ∀ (i : Nat) (h : i < (polyChunks m).length),
      1 ≤ (polyChunks m)[i].length ∧ (polyChunks m)[i].length ≤ 16 ∧
      (i + 1 < (polyChunks m).length → (polyChunks m)[i].length = 16)) ∧
  (∀ c : List Byte, chunkValue c = leInt c + 2 ^ (8 * c.length) ∧ 2 ^ (8 * c.length) ≤ chunkValue c ∧
    chunkValue c < 2 ^ (8 * c.length + 1))

/-- R120: the clamp clears the top 4 bits of key bytes 3, 7, 11, 15 and the low 2 bits of bytes 4, 8, 12, keeps every other bit of
the first 16, and depends on no other byte; r is at most the mask. -/
def Obligations.PolyClampBytes : Prop :=
  (∀ k : List Byte, polyR k ≤ 0x0ffffffc0ffffffc0ffffffc0fffffff) ∧
  ∀ k : List Byte, k.length = 32 → ∀ i : Nat, i < 16 →
    (leBytes 16 (polyR k))[i]? =
      some (if i = 3 ∨ i = 7 ∨ i = 11 ∨ i = 15 then k[i]! &&& 0x0f#8
        else if i = 4 ∨ i = 8 ∨ i = 12 then k[i]! &&& 0xfc#8 else k[i]!)

/-- The two MAC vectors of the source (R125). -/
def Obligations.PolySourceVectors : Prop :=
  poly1305 (zeros 64) (zeros 32) = zeros 16 ∧
  poly1305 ([0x02] ++ zeros 15) ([0x02] ++ zeros 15 ++ List.replicate 16 0xff) = [0x03] ++ zeros 15

/-- KEYGEN completes in every state: PKEY holds words 0 to 7 of the block at counter 0, which are the words of
`Poly1305KeyGen(key, nonce)`; everything else, STATE and COUNTER among it, is unchanged (R128, R131). -/
def Obligations.KeygenCompletes : Prop :=
  ∀ s : State, ∃ p : Vector Word 8, exec .keygen s = .next (finished { s with pkey := p }) ∧
    (∀ (i : Nat) (h : i < 8), p[i] = (blockWords s.key 0 s.nonce)[i]) ∧
    p = bytesToWords 8 (poly1305KeyGen (wordsToBytes s.key.toList) (wordsToBytes s.nonce.toList))

/-! ### AEAD family (42_aead.md) -/

/-- AEAD_ENC whose checks pass completes: the ciphertext at DST, the tag in TAG, everything else unchanged (R145). Byte k at DST is byte k
of the source XOR byte k mod 64 of the block at counter 1 + k div 64; TAG is the MAC over the associated data and the ciphertext
written, under the first 32 bytes of the block at counter 0 (R143). -/
def Obligations.AeadEncCompletes : Prop :=
  ∀ s : State, AeadAccepted s → ∃ t, exec .aeadEnc s = .next t ∧
    t = finished { s with
      buf := Memory.writeBytes s.buf s.dst.toNat
        (aeadEncrypt (Memory.readBytes s.buf s.aad.toNat s.aadLen.toNat) (wordsToBytes s.key.toList)
          (wordBytes s.nonce[1] ++ wordBytes s.nonce[2]) (wordBytes s.nonce[0])
          (Memory.readBytes s.buf s.src.toNat s.len.toNat)).1
      tag := bytesToWords 4
        (aeadEncrypt (Memory.readBytes s.buf s.aad.toNat s.aadLen.toNat) (wordsToBytes s.key.toList)
          (wordBytes s.nonce[1] ++ wordBytes s.nonce[2]) (wordBytes s.nonce[0])
          (Memory.readBytes s.buf s.src.toNat s.len.toNat)).2 } ∧
    (∀ k : Nat, k < s.len.toNat → ∃ b : Byte,
      (wordsToBytes (blockWords s.key (1 + BitVec.ofNat 32 (k / 64)) s.nonce).toList)[k % 64]? = some b ∧
      1 + k / 64 < 2 ^ 32 ∧ t.byteAt (s.dst.toNat + k) = s.byteAt (s.src.toNat + k) ^^^ b) ∧
    t.tag = bytesToWords 4 (poly1305
      (macInput (Memory.readBytes s.buf s.aad.toNat s.aadLen.toNat) (Memory.readBytes t.buf s.dst.toNat s.len.toNat))
      ((wordsToBytes (blockWords s.key 0 s.nonce).toList).take 32))

/-- AEAD_DEC whose checks pass completes: the plaintext at DST, the recomputed tag in TAG, everything else unchanged, whatever the
tag is (R146, R147). Byte k at DST is byte k of the source XOR byte k mod 64 of the block at counter 1 + k div 64; TAG is the MAC over
the associated data and the ciphertext read from SRC, under the first 32 bytes of the block at counter 0 (R144). -/
def Obligations.AeadDecCompletes : Prop :=
  ∀ s : State, AeadAccepted s → ∃ t, exec .aeadDec s = .next t ∧
    t = finished { s with
      buf := Memory.writeBytes s.buf s.dst.toNat
        (aeadDecrypt (Memory.readBytes s.buf s.aad.toNat s.aadLen.toNat) (wordsToBytes s.key.toList)
          (wordBytes s.nonce[1] ++ wordBytes s.nonce[2]) (wordBytes s.nonce[0])
          (Memory.readBytes s.buf s.src.toNat s.len.toNat)).1
      tag := bytesToWords 4
        (aeadDecrypt (Memory.readBytes s.buf s.aad.toNat s.aadLen.toNat) (wordsToBytes s.key.toList)
          (wordBytes s.nonce[1] ++ wordBytes s.nonce[2]) (wordBytes s.nonce[0])
          (Memory.readBytes s.buf s.src.toNat s.len.toNat)).2 } ∧
    (∀ k : Nat, k < s.len.toNat → ∃ b : Byte,
      (wordsToBytes (blockWords s.key (1 + BitVec.ofNat 32 (k / 64)) s.nonce).toList)[k % 64]? = some b ∧
      1 + k / 64 < 2 ^ 32 ∧ t.byteAt (s.dst.toNat + k) = s.byteAt (s.src.toNat + k) ^^^ b) ∧
    t.tag = bytesToWords 4 (poly1305
      (macInput (Memory.readBytes s.buf s.aad.toNat s.aadLen.toNat) (Memory.readBytes s.buf s.src.toNat s.len.toNat))
      ((wordsToBytes (blockWords s.key 0 s.nonce).toList).take 32))

/-- AEAD_ENC and AEAD_DEC whose checks fail report RANGE, else OVERLAP, and write neither the destination nor TAG; neither ever
reports COUNTER_OVERFLOW (R145, R146). The spec refuses at the issue; that `exec` itself answers the report is the model's choice of
log 8. -/
def Obligations.AeadRefusals : Prop :=
  ∀ (s : State) (i : Instr), i = .aeadEnc ∨ i = .aeadDec →
    (¬ (SrcFits s ∧ DstFits s ∧ AadFits s) → exec i s = .next (refusedWith .range s)) ∧
    (SrcFits s → DstFits s → AadFits s → SrcDstOverlap s ∨ AadDstOverlap s → exec i s = .next (refusedWith .overlap s)) ∧
    validate i s ≠ some .counterOverflow

/-- Decryption of an encryption gives the plaintext back and the same tag, for every key, iv, constant, associated data and
plaintext, the empty ones included (R144). -/
def Obligations.AeadFunctionsRoundTrip : Prop :=
  ∀ aad key iv constant pt : List Byte,
    aeadDecrypt aad key iv constant (aeadEncrypt aad key iv constant pt).1 = (pt, (aeadEncrypt aad key iv constant pt).2)

/-- The MAC input (R140, R142): the associated data, the ciphertext, each padded with the fewest zero bytes to a multiple of 16, then
the two lengths of 8 bytes; its length is a multiple of 16 and at least 16, so every chunk Poly1305 takes of it is full. -/
def Obligations.MacInputLayout : Prop :=
  (∀ n : Nat, (pad16 n).length < 16 ∧ (n + (pad16 n).length) % 16 = 0 ∧ ∀ b ∈ pad16 n, b = 0) ∧
  (∀ aad ct : List Byte,
    (macInput aad ct).length % 16 = 0 ∧ 16 ≤ (macInput aad ct).length ∧
    (∀ c ∈ polyChunks (macInput aad ct), c.length = 16) ∧
    macInput aad ct = aad ++ pad16 aad.length ++ ct ++ pad16 ct.length ++ leBytes 8 aad.length ++ leBytes 8 ct.length)

/-- The block's round trip: AEAD_ENC into DST, then AEAD_DEC in place with SRC set to DST, leaves the plaintext's bytes at DST and
the same TAG (R144 to R146). -/
def Obligations.AeadMachineRoundTrip : Prop :=
  ∀ s : State, AeadAccepted s → ∃ t u,
    exec .aeadEnc s = .next t ∧ exec .aeadDec { t with src := t.dst } = .next u ∧
    u.tag = t.tag ∧ u.error = s.error ∧
    (∀ k : Nat, k < s.len.toNat → u.byteAt (s.dst.toNat + k) = s.byteAt (s.src.toNat + k)) ∧
    (∀ a : Nat, a < s.dst.toNat ∨ s.dst.toNat + s.len.toNat ≤ a → u.byteAt a = s.byteAt a)

/-! ### Errors, interrupt, frames (60_exceptions.md, 10_state.md) -/

/-- R168: the issue of a word that validation refuses leaves STATE, PKEY, TAG and every buffer byte unchanged, and so does the
command itself where its checks find an error (that `exec` checks again is the model's choice of log 8); a command that validation
accepts completes with BUSY = 0, DONE = 1 and ERR as it was. -/
def Obligations.RefusedWritesNoOutput : Prop :=
  (∀ (v : Word) (s : State) (e : ErrCode), validateWord v s = some e →
    (issue v s).busy = false ∧ (issue v s).done = true ∧ (issue v s).error = some e ∧ (issue v s).state = s.state ∧
      (issue v s).pkey = s.pkey ∧ (issue v s).tag = s.tag ∧ ∀ a, (issue v s).byteAt a = s.byteAt a) ∧
  ∀ (i : Instr) (s : State), ∃ t, exec i s = .next t ∧ t.busy = false ∧ t.done = true ∧
    (∀ e, validate i s = some e →
      t.error = some e ∧ t.state = s.state ∧ t.pkey = s.pkey ∧ t.tag = s.tag ∧ ∀ a, t.byteAt a = s.byteAt a) ∧
    (validate i s = none → t.error = s.error)

/-- The frame of every command: the registers the engine never writes, STATE but for QR's four words and BLOCK, PKEY but for
KEYGEN, TAG but for POLY, AEAD_ENC and AEAD_DEC, and every buffer byte but the LEN bytes at DST of STREAM, AEAD_ENC and AEAD_DEC
(R33 to R40, R45). -/
def Obligations.CommandFrame : Prop :=
  ∀ (i : Instr) (s t : State), exec i s = .next t →
    (t.cfg = s.cfg ∧ t.inReset = s.inReset ∧ t.irqEn = s.irqEn ∧ t.wdrop = s.wdrop ∧ t.cmd = s.cmd ∧ t.counter = s.counter ∧
      t.src = s.src ∧ t.dst = s.dst ∧ t.len = s.len ∧ t.aad = s.aad ∧ t.aadLen = s.aadLen ∧ t.key = s.key ∧
      t.nonce = s.nonce ∧ t.inputs = s.inputs ∧ t.resp = s.resp ∧ t.draws = s.draws) ∧
    (i ≠ .block → (∀ a b c d, i ≠ .qr a b c d) → t.state = s.state) ∧
    (∀ a b c d, i = .qr a b c d → ∀ k : Fin 16, k ≠ a.toFin → k ≠ b.toFin → k ≠ c.toFin → k ≠ d.toFin →
      t.state[k] = s.state[k]) ∧
    (i ≠ .keygen → t.pkey = s.pkey) ∧
    (i ≠ .poly → i ≠ .aeadEnc → i ≠ .aeadDec → t.tag = s.tag) ∧
    (i ≠ .stream → i ≠ .aeadEnc → i ≠ .aeadDec → ∀ a, t.byteAt a = s.byteAt a) ∧
    (∀ a, a < s.dst.toNat ∨ s.dst.toNat + s.len.toNat ≤ a → t.byteAt a = s.byteAt a)

/-- R173: the interrupt output rises in a step only when a command finishes while IRQ_EN = 1, or when a write of CTRL sets IRQ_EN
while DONE = 1; and it is the conjunction of the two bits. -/
def Obligations.InterruptRises : Prop :=
  (∀ s : State, s.inReset = false → s.irq = (s.irqEn && s.done)) ∧
  ∀ s t : State, s.Inv → step s = .next t → s.irq = false → t.irq = true →
    (s.irqEn = true ∧ t.irqEn = true ∧ s.done = false ∧ t.done = true ∧ t.busy = false) ∨
    (s.irqEn = false ∧ s.done = true ∧ ∃ off v rest, s.inputs = .host (.write off .word 0xF#4 v) :: rest ∧
      off.toNat = 0x008 ∧ v.getLsbD 0 = true)

/-- R174: the interrupt output is low after a write of STATUS with bit 1 = 1, after a write of CTRL with bit 0 = 0, and after the
issue of a command that validation accepts. -/
def Obligations.InterruptCleared : Prop :=
  (∀ (s : State) (v : Word), v.getLsbD 1 = true → (hostAccess (wr .status v) s).irq = false) ∧
  (∀ (s : State) (v : Word), v.getLsbD 0 = false → (hostAccess (wr .ctrl v) s).irq = false) ∧
  (∀ (s : State) (v : Word), s.busy = false → validateWord v s = none → (hostAccess (wr .cmd v) s).irq = false)

/-- R31: a write dropped while BUSY sets WDROP; once set, WDROP is cleared in a step only by a host write of STATUS with bit 3 = 1 or
by reset; it is set only by a host write while BUSY. -/
def Obligations.WdropSticky : Prop :=
  (∀ (s : State) (r : Reg) (v : Word), s.busy = true → r ≠ .ctrl → r ≠ .status → (hostAccess (wr r v) s).wdrop = true) ∧
  (∀ (s : State) (o : Nat) (v : Word), s.cfg.wf = true → s.busy = true → o % 4 = 0 → o < s.cfg.bufBytes →
    (hostAccess (wrb o v) s).wdrop = true) ∧
  (∀ s t : State, step s = .next t → s.wdrop = true → t.wdrop = false →
    (∃ off v rest, s.inputs = .host (.write off .word 0xF#4 v) :: rest ∧ off.toNat = 0x00C ∧ v.getLsbD 3 = true) ∨
    ∃ rest, s.inputs = .resetAssert :: rest) ∧
  (∀ s t : State, step s = .next t → s.wdrop = false → t.wdrop = true →
    s.busy = true ∧ ∃ off v rest, s.inputs = .host (.write off .word 0xF#4 v) :: rest)

/-- R28: BUSY is set by a host write of CMD that validation accepts and by nothing else; it is cleared by the engine's completion and
by reset and by nothing else. -/
def Obligations.BusyTransitions : Prop :=
  (∀ (s : State) (v : Word), s.busy = false → validateWord v s = none → (hostAccess (wr .cmd v) s).busy = true) ∧
  (∀ (i : Instr) (s t : State), exec i s = .next t → t.busy = false) ∧
  (∀ s t : State, step s = .next t → s.busy = false → t.busy = true →
    ∃ off v rest, s.inputs = .host (.write off .word 0xF#4 v) :: rest ∧ off.toNat = 0x010 ∧
      validateWord v s = none ∧ t.cmd = v) ∧
  (∀ s t : State, step s = .next t → s.busy = true → t.busy = false →
    (∃ i, s.pending = some i ∧ t.done = true ∧ (s.inputs = [] ∨ ∃ rest, s.inputs = .engine :: rest)) ∨
    ∃ rest, s.inputs = .resetAssert :: rest)

/-! ### Reset (70_reset_and_hazards.md) -/

/-- The values of R50 in the state after reset: every register, the two constants as a host reads them, no command pending, the
interrupt output low. -/
def Obligations.ResetValues : Prop :=
  State.reset.RegistersReset ∧ State.reset.irq = false ∧
  readReg .id State.reset = 0x0C201305#32 ∧ (readReg .bufsize State.reset).toNat = State.reset.cfg.bufBytes ∧
  statusWord State.reset = 0 ∧ ctrlWord State.reset = 0

/-- R200, R202: asserting `rst_n` gives every register its reset value, drives irq low, and keeps every buffer byte but those of
the destination region of a pending STREAM, AEAD_ENC or AEAD_DEC; releasing it changes nothing else and leaves the block idle. A step
whose next input is such an edge takes it (the list of coming inputs is the model's choice of log 5, the instant of the effect of
log 9). -/
def Obligations.ResetAbandonsCommand : Prop :=
  (∀ s : State, (assertReset s).RegistersReset ∧ (assertReset s).inReset = true ∧ (assertReset s).irq = false ∧
    (assertReset s).cfg = s.cfg ∧ (assertReset s).inputs = s.inputs ∧
    (∀ a : Nat,
      (∀ i, s.pending = some i → (i = .stream ∨ i = .aeadEnc ∨ i = .aeadDec) →
        a < s.dst.toNat ∨ s.dst.toNat + s.len.toNat ≤ a) →
      (assertReset s).byteAt a = s.byteAt a) ∧
    releaseReset s = { s with inReset := false } ∧ (releaseReset (assertReset s)).busy = false) ∧
  (∀ (s : State) (rest : List Input), s.inputs = .resetAssert :: rest →
    step s = .next (assertReset { s with inputs := rest })) ∧
  (∀ (s : State) (rest : List Input), s.inputs = .resetRelease :: rest →
    step s = .next (releaseReset { s with inputs := rest }))

/-- R203: a host transaction while `rst_n` is asserted is refused, and a host transaction outside reset never is. -/
def Obligations.HostRefusedInReset : Prop :=
  ∀ (s : State) (a : Access) (rest : List Input), s.inputs = .host a :: rest →
    (s.inReset = true → step s = .refused .hostAccessDuringReset) ∧
    (s.inReset = false → step s = .next (hostAccess a (setInputs rest s)))

/-! ### The whole machine -/

/-- A step runs the pending command: when the engine is next, the step is `exec` of the command that was decoded at issue (R44,
R45); with no command pending the engine's turn changes nothing but the coming inputs (R177); and a row's word placed by `withFetchWord` is what the very next step runs (the model's placing, log 5). -/
def Obligations.StepRunsPendingCommand : Prop :=
  (∀ (s : State) (i : Instr), s.pending = some i → s.inputs = [] → step s = exec i s) ∧
  (∀ (s : State) (i : Instr) (rest : List Input), s.pending = some i → s.inputs = .engine :: rest →
    step s = exec i (setInputs rest s)) ∧
  (∀ s : State, s.pending = none → s.inputs = [] → step s = .next s) ∧
  (∀ (s : State) (rest : List Input), s.pending = none → s.inputs = .engine :: rest → step s = .next { s with inputs := rest }) ∧
  (∀ (s : State) (n w : Nat) (i : Instr), decodeTableWord n w = some i →
    step (s.withFetchWord n w) = exec i (s.withFetchWord n w))

/-- A command from issue to completion: a host write of CMD of a word that decodes to `i` and passes its checks, then the engine,
is `exec i` on the state with CMD stored, the old report cleared and the command pending (R44, R45). The host program `RUN i` (R87)
polls STATUS as long as the engine has not moved, however many polls that is, and ends at the first poll after (the turns are the
model's choice of log 12). A program records the value of each `RD`, so each poll's STATUS too, in order; a write records nothing, and
nothing recorded is lost (R86; that `RDB` records is the model's inference of log 12). -/
def Obligations.IssueThenCompletion : Prop :=
  (∀ (s : State) (i : Instr) (k : Nat), s.busy = false → s.inReset = false → validate i s = none →
    ∃ w u,
      runProgram (.host :: List.replicate k .host) (.start (runCmd i) s) = .next w ∧
      w.left = [.wait] ∧ w.block.busy = true ∧ w.recorded = List.replicate k (statusWord w.block) ∧
      runProgram (.host :: (List.replicate k .host ++ [.engine, .host])) (.start (runCmd i) s) = .next u ∧
      u.left = [] ∧ u.block.busy = false ∧ u.block.done = true ∧ u.block.error = none ∧ u.block.cmd = encode i ∧
      u.recorded = w.recorded ++ [statusWord u.block]) ∧
  (∀ (s : State) (p : List HostInstr) (vs : List Word), s.inReset = false →
    (∀ r : Reg, (s.busy && drawnWhileBusy (.reg r)) = false →
      runProgram [.host] { left := .access (rd r) :: p, recorded := vs, block := s } =
        .next { left := p, recorded := vs ++ [readReg r s], block := hostAccess (rd r) s }) ∧
    (∀ r : Reg, (s.busy && drawnWhileBusy (.reg r)) = true →
      runProgram [.host] { left := .access (rd r) :: p, recorded := vs, block := s } =
        .next { left := p, recorded := vs ++ [Config.busyRead s.draws], block := hostAccess (rd r) s }) ∧
    (∀ o : Nat, s.cfg.wf = true → s.busy = false → o % 4 = 0 → o < s.cfg.bufBytes →
      runProgram [.host] { left := .access (rdb o) :: p, recorded := vs, block := s } =
        .next { left := p, recorded := vs ++ [readBufWord o s], block := hostAccess (rdb o) s }) ∧
    ∀ (off : Nat) (v : Word),
      runProgram [.host] { left := .access (wrAt off v) :: p, recorded := vs, block := s } =
        .next { left := p, recorded := vs, block := hostAccess (wrAt off v) s }) ∧
  (∀ (ts : List Turn) (r u : Running), runProgram ts r = .next u → r.recorded <+: u.recorded) ∧
  ∀ (s : State) (v : Word) (i : Instr) (rest : List Input), s.busy = false → s.inReset = false →
    s.inputs = .host (wr .cmd v) :: .engine :: rest → decode v = .ok i → validate i s = none →
    ∃ t, Sys2Proof.core.run 2 s = .next t ∧ t.busy = false ∧ t.done = true ∧ t.error = none ∧ t.cmd = v ∧
      exec i { s with cmd := v, pending := some i, done := false, error := none, inputs := rest,
                      resp := some { status := .okay, data := none } } = .next t

/-- The state after reset meets the invariant. -/
def Obligations.ResetMeetsInv : Prop := State.reset.Inv

/-- Every step keeps the invariant: a legal buffer size, the buffer canonical and in its bounds, a pending command that is the one
CMD holds and passed its checks, DONE = 0 and ERR = 0 while BUSY, only raised error codes, reset values while in reset. -/
def Obligations.StepKeepsInv : Prop := ∀ s t : State, s.Inv → step s = .next t → t.Inv

/-- R49: whatever host transactions come between issue and completion, the command finishes with the same STATE, PKEY, TAG,
buffer and error report as if the engine had moved at once. -/
def Obligations.ResultIndependentOfLatency : Prop :=
  ∀ (s : State) (i : Instr) (as : List Access) (rest : List Input), s.Inv → s.pending = some i →
    ∃ t u,
      Sys2Proof.core.run 1 (setInputs (.engine :: rest) s) = .next t ∧
      Sys2Proof.core.run (as.length + 1) (setInputs (as.map .host ++ .engine :: rest) s) = .next u ∧
      u.state = t.state ∧ u.pkey = t.pkey ∧ u.tag = t.tag ∧ u.buf = t.buf ∧ u.done = t.done ∧ u.error = t.error ∧
      u.busy = false ∧ t.busy = false ∧ t.done = true

/-- R204: with no reset among the coming inputs, a pending command completes after at most one more step than there are inputs. -/
def Obligations.CompletionIsEventual : Prop :=
  ∀ (s : State) (i : Instr), s.Inv → s.pending = some i → .resetAssert ∉ s.inputs → .resetRelease ∉ s.inputs →
    ∃ k t, k ≤ s.inputs.length + 1 ∧ Sys2Proof.core.run k s = .next t ∧ t.busy = false ∧ t.done = true ∧ t.error = none

/-- No step stops but a host transaction while `rst_n` is asserted: every command word, operand value and access has its effect
(R168, R203, R210). -/
def Obligations.OnlyResetAccessStops : Prop :=
  ∀ s : State, (∃ t, step s = .next t) ∨
    (s.inReset = true ∧ (∃ a rest, s.inputs = .host a :: rest) ∧ step s = .refused .hostAccessDuringReset)
end

