-- ==== Sys2Proof/Laws/Memory.lean ====
section
/-! SUPPORT. The buffer: what a read gives after a write, and that every write keeps the canonical form (20_memory.md R60 to R62). -/

namespace Sys2Proof.Machine

/-- A read after a write gives the value written at the same offset, and what was there at every other. -/
theorem read?_write (m : Memory) (a b : Nat) (v : Byte) :
    Memory.read? (Memory.write m a v) b = if b = a then some v else Memory.read? m b := by
  induction m with
  | nil => simp [Memory.write, Memory.read?, eq_comm]
  | cons c m ih =>
    obtain ⟨k, c⟩ := c
    simp only [Memory.write]
    split
    · simp [Memory.read?, eq_comm]
    · split
      · subst_vars; by_cases h : b = k <;> simp [Memory.read?, h, eq_comm]
      · simp only [Memory.read?, ih]
        by_cases h : b = k
        · subst h; rename_i h2; simp [Ne.symm h2]
        · simp [Ne.symm h]

theorem byteAt_write (m : Memory) (a b : Nat) (v : Byte) :
    Memory.byteAt (Memory.write m a v) b = if b = a then v else Memory.byteAt m b := by
  unfold Memory.byteAt
  rw [read?_write]
  split <;> simp

/-- The offsets listed after a write. -/
theorem mem_write {m : Memory} {a : Nat} {v : Byte} {c : Host.Cell} (h : c ∈ Memory.write m a v) :
    c = (a, v) ∨ c ∈ m := by
  induction m with
  | nil => simpa [Memory.write] using h
  | cons d m ih =>
    obtain ⟨k, d⟩ := d
    simp only [Memory.write] at h
    split at h
    · simpa using h
    · split at h
      · simp only [List.mem_cons] at h ⊢; tauto
      · simp only [List.mem_cons] at h ⊢
        rcases h with h | h
        · exact .inr (.inl h)
        · rcases ih h with h | h <;> tauto

/-- A write keeps the canonical form. -/
theorem wf_write {m : Memory} (h : Memory.wf m) (a : Nat) (v : Byte) : Memory.wf (Memory.write m a v) := by
  induction m with
  | nil => simp [Memory.write, Memory.wf]
  | cons d m ih =>
    obtain ⟨k, d⟩ := d
    simp only [Memory.wf, List.map_cons, List.pairwise_cons, List.mem_map, forall_exists_index, and_imp] at h ih
    obtain ⟨hk, hm⟩ := h
    simp only [Memory.write]
    split
    · rename_i hak
      simp only [Memory.wf, List.map_cons, List.pairwise_cons, List.mem_cons, List.mem_map, forall_eq_or_imp,
        forall_exists_index, and_imp]
      refine ⟨⟨hak, fun x c hc hx => lt_trans hak (hk x c hc hx)⟩, hk, hm⟩
    · split
      · rename_i hak
        subst hak
        simp only [Memory.wf, List.map_cons, List.pairwise_cons, List.mem_map, forall_exists_index, and_imp]
        exact ⟨hk, hm⟩
      · rename_i h1 h2
        simp only [Memory.wf, List.map_cons, List.pairwise_cons, List.mem_map, forall_exists_index, and_imp]
        refine ⟨fun x c hc hx => ?_, ih hm⟩
        rcases mem_write hc with rfl | hc
        · subst hx; simp; omega
        · exact hk x c hc hx

/-- A write inside the buffer keeps every listed offset inside it. -/
theorem within_write {m : Memory} {n : Nat} (h : Memory.within n m) {a : Nat} (ha : a < n) (v : Byte) :
    Memory.within n (Memory.write m a v) := by
  intro c hc
  rcases mem_write hc with rfl | hc
  · exact ha
  · exact h c hc

theorem wf_writeBytes {m : Memory} (h : Memory.wf m) (o : Nat) (bs : List Byte) :
    Memory.wf (Memory.writeBytes m o bs) := by
  induction bs generalizing m o with
  | nil => exact h
  | cons b bs ih => exact ih (wf_write h o b) (o + 1)

theorem within_writeBytes {m : Memory} {n : Nat} (h : Memory.within n m) (o : Nat) (bs : List Byte)
    (ho : o + bs.length ≤ n) : Memory.within n (Memory.writeBytes m o bs) := by
  induction bs generalizing m o with
  | nil => exact h
  | cons b bs ih =>
    simp only [List.length_cons] at ho
    exact ih (within_write h (by omega) b) (o + 1) (by omega)

/-- `MemWrite` sets `BUF[o + i] <- m[i]` and changes no other byte (R62). -/
theorem byteAt_writeBytes (m : Memory) (o : Nat) (bs : List Byte) (a : Nat) :
    Memory.byteAt (Memory.writeBytes m o bs) a =
      if h : o ≤ a ∧ a < o + bs.length then bs[a - o]'(by omega) else Memory.byteAt m a := by
  induction bs generalizing m o with
  | nil => simp [Memory.writeBytes]
  | cons b bs ih =>
    rw [Memory.writeBytes, ih, byteAt_write]
    by_cases h1 : a = o
    · subst h1
      simp
    · by_cases h2 : o + 1 ≤ a ∧ a < o + 1 + bs.length
      · have h3 : o ≤ a ∧ a < o + (b :: bs).length := by simp only [List.length_cons]; omega
        rw [dif_pos h2, dif_pos h3]
        have h4 : a - o = (a - (o + 1)) + 1 := by omega
        simp [h4]
      · have h3 : ¬(o ≤ a ∧ a < o + (b :: bs).length) := by simp only [List.length_cons]; omega
        rw [dif_neg h2, dif_neg h3, if_neg h1]

theorem byteAt_writeBytes_outside (m : Memory) (o : Nat) (bs : List Byte) {a : Nat}
    (h : a < o ∨ o + bs.length ≤ a) : Memory.byteAt (Memory.writeBytes m o bs) a = Memory.byteAt m a := by
  rw [byteAt_writeBytes, dif_neg (by omega)]

@[simp] theorem readBytes_length (m : Memory) (o n : Nat) : (Memory.readBytes m o n).length = n := by
  induction n generalizing o with
  | zero => rfl
  | succ n ih => simp [Memory.readBytes, ih]

/-- `MemRead(o, n)` is `BUF[o] ‖ … ‖ BUF[o+n−1]` (R61). -/
theorem readBytes_getElem (m : Memory) (o n i : Nat) (h : i < (Memory.readBytes m o n).length) :
    (Memory.readBytes m o n)[i] = Memory.byteAt m (o + i) := by
  induction n generalizing o i with
  | zero => simp at h
  | succ n ih =>
    cases i with
    | zero => rfl
    | succ i =>
      simp only [Memory.readBytes, List.getElem_cons_succ]
      rw [ih, Nat.add_right_comm, Nat.add_assoc]

/-- Two buffers that agree on a region give the same string. -/
theorem readBytes_congr {m k : Memory} {o n : Nat} (h : ∀ a, o ≤ a → a < o + n → Memory.byteAt m a = Memory.byteAt k a) :
    Memory.readBytes m o n = Memory.readBytes k o n := by
  apply List.ext_getElem
  · simp
  · intro i h1 h2
    rw [readBytes_getElem, readBytes_getElem]
    simp only [readBytes_length] at h1
    exact h _ (by omega) (by omega)

/-- The string written at an offset is read back from it. -/
theorem readBytes_writeBytes (m : Memory) (o : Nat) (bs : List Byte) :
    Memory.readBytes (Memory.writeBytes m o bs) o bs.length = bs := by
  apply List.ext_getElem
  · simp
  · intro i h1 h2
    rw [readBytes_getElem, byteAt_writeBytes, dif_pos (by omega)]
    simp

/-- A string read from outside a written span is unchanged. -/
theorem readBytes_writeBytes_disjoint (m : Memory) (o p n : Nat) (bs : List Byte)
    (h : n = 0 ∨ bs.length = 0 ∨ p + n ≤ o ∨ o + bs.length ≤ p) :
    Memory.readBytes (Memory.writeBytes m o bs) p n = Memory.readBytes m p n := by
  apply readBytes_congr
  intro a h1 h2
  rcases h with h | h | h
  · omega
  · rw [List.length_eq_zero_iff.mp h, Memory.writeBytes]
  · exact byteAt_writeBytes_outside m o bs (by omega)

@[simp] theorem memRead_length (r : Region) (s : State) : (memRead r s).length = r.len := by simp [memRead]

end Sys2Proof.Machine
end

