-- ==== Sys2Proof/Laws/State.lean ====
section
/-! SUPPORT. Every field of the state after every named update: true by unfolding, so no later proof unfolds a record update. -/

namespace Sys2Proof.Machine

variable (s : State)

/-! ### clearReport -/

@[simp] theorem clearReport_cfg : (clearReport s).cfg = s.cfg := rfl
@[simp] theorem clearReport_inReset : (clearReport s).inReset = s.inReset := rfl
@[simp] theorem clearReport_irqEn : (clearReport s).irqEn = s.irqEn := rfl
@[simp] theorem clearReport_pending : (clearReport s).pending = s.pending := rfl
@[simp] theorem clearReport_done : (clearReport s).done = false := rfl
@[simp] theorem clearReport_error : (clearReport s).error = none := rfl
@[simp] theorem clearReport_wdrop : (clearReport s).wdrop = s.wdrop := rfl
@[simp] theorem clearReport_cmd : (clearReport s).cmd = s.cmd := rfl
@[simp] theorem clearReport_counter : (clearReport s).counter = s.counter := rfl
@[simp] theorem clearReport_src : (clearReport s).src = s.src := rfl
@[simp] theorem clearReport_dst : (clearReport s).dst = s.dst := rfl
@[simp] theorem clearReport_len : (clearReport s).len = s.len := rfl
@[simp] theorem clearReport_aad : (clearReport s).aad = s.aad := rfl
@[simp] theorem clearReport_aadLen : (clearReport s).aadLen = s.aadLen := rfl
@[simp] theorem clearReport_key : (clearReport s).key = s.key := rfl
@[simp] theorem clearReport_nonce : (clearReport s).nonce = s.nonce := rfl
@[simp] theorem clearReport_tag : (clearReport s).tag = s.tag := rfl
@[simp] theorem clearReport_pkey : (clearReport s).pkey = s.pkey := rfl
@[simp] theorem clearReport_state : (clearReport s).state = s.state := rfl
@[simp] theorem clearReport_buf : (clearReport s).buf = s.buf := rfl
@[simp] theorem clearReport_inputs : (clearReport s).inputs = s.inputs := rfl
@[simp] theorem clearReport_resp : (clearReport s).resp = s.resp := rfl
@[simp] theorem clearReport_draws : (clearReport s).draws = s.draws := rfl

/-! ### reportError -/

@[simp] theorem reportError_cfg (e : ErrCode) : (reportError e s).cfg = s.cfg := rfl
@[simp] theorem reportError_inReset (e : ErrCode) : (reportError e s).inReset = s.inReset := rfl
@[simp] theorem reportError_irqEn (e : ErrCode) : (reportError e s).irqEn = s.irqEn := rfl
@[simp] theorem reportError_pending (e : ErrCode) : (reportError e s).pending = none := rfl
@[simp] theorem reportError_done (e : ErrCode) : (reportError e s).done = true := rfl
@[simp] theorem reportError_error (e : ErrCode) : (reportError e s).error = some e := rfl
@[simp] theorem reportError_wdrop (e : ErrCode) : (reportError e s).wdrop = s.wdrop := rfl
@[simp] theorem reportError_cmd (e : ErrCode) : (reportError e s).cmd = s.cmd := rfl
@[simp] theorem reportError_counter (e : ErrCode) : (reportError e s).counter = s.counter := rfl
@[simp] theorem reportError_src (e : ErrCode) : (reportError e s).src = s.src := rfl
@[simp] theorem reportError_dst (e : ErrCode) : (reportError e s).dst = s.dst := rfl
@[simp] theorem reportError_len (e : ErrCode) : (reportError e s).len = s.len := rfl
@[simp] theorem reportError_aad (e : ErrCode) : (reportError e s).aad = s.aad := rfl
@[simp] theorem reportError_aadLen (e : ErrCode) : (reportError e s).aadLen = s.aadLen := rfl
@[simp] theorem reportError_key (e : ErrCode) : (reportError e s).key = s.key := rfl
@[simp] theorem reportError_nonce (e : ErrCode) : (reportError e s).nonce = s.nonce := rfl
@[simp] theorem reportError_tag (e : ErrCode) : (reportError e s).tag = s.tag := rfl
@[simp] theorem reportError_pkey (e : ErrCode) : (reportError e s).pkey = s.pkey := rfl
@[simp] theorem reportError_state (e : ErrCode) : (reportError e s).state = s.state := rfl
@[simp] theorem reportError_buf (e : ErrCode) : (reportError e s).buf = s.buf := rfl
@[simp] theorem reportError_inputs (e : ErrCode) : (reportError e s).inputs = s.inputs := rfl
@[simp] theorem reportError_resp (e : ErrCode) : (reportError e s).resp = s.resp := rfl
@[simp] theorem reportError_draws (e : ErrCode) : (reportError e s).draws = s.draws := rfl

/-! ### complete -/

@[simp] theorem complete_cfg : (complete s).cfg = s.cfg := rfl
@[simp] theorem complete_inReset : (complete s).inReset = s.inReset := rfl
@[simp] theorem complete_irqEn : (complete s).irqEn = s.irqEn := rfl
@[simp] theorem complete_pending : (complete s).pending = none := rfl
@[simp] theorem complete_done : (complete s).done = true := rfl
@[simp] theorem complete_error : (complete s).error = s.error := rfl
@[simp] theorem complete_wdrop : (complete s).wdrop = s.wdrop := rfl
@[simp] theorem complete_cmd : (complete s).cmd = s.cmd := rfl
@[simp] theorem complete_counter : (complete s).counter = s.counter := rfl
@[simp] theorem complete_src : (complete s).src = s.src := rfl
@[simp] theorem complete_dst : (complete s).dst = s.dst := rfl
@[simp] theorem complete_len : (complete s).len = s.len := rfl
@[simp] theorem complete_aad : (complete s).aad = s.aad := rfl
@[simp] theorem complete_aadLen : (complete s).aadLen = s.aadLen := rfl
@[simp] theorem complete_key : (complete s).key = s.key := rfl
@[simp] theorem complete_nonce : (complete s).nonce = s.nonce := rfl
@[simp] theorem complete_tag : (complete s).tag = s.tag := rfl
@[simp] theorem complete_pkey : (complete s).pkey = s.pkey := rfl
@[simp] theorem complete_state : (complete s).state = s.state := rfl
@[simp] theorem complete_buf : (complete s).buf = s.buf := rfl
@[simp] theorem complete_inputs : (complete s).inputs = s.inputs := rfl
@[simp] theorem complete_resp : (complete s).resp = s.resp := rfl
@[simp] theorem complete_draws : (complete s).draws = s.draws := rfl

/-! ### memWrite -/

@[simp] theorem memWrite_cfg (o : Nat) (m : List Byte) : (memWrite o m s).cfg = s.cfg := rfl
@[simp] theorem memWrite_inReset (o : Nat) (m : List Byte) : (memWrite o m s).inReset = s.inReset := rfl
@[simp] theorem memWrite_irqEn (o : Nat) (m : List Byte) : (memWrite o m s).irqEn = s.irqEn := rfl
@[simp] theorem memWrite_pending (o : Nat) (m : List Byte) : (memWrite o m s).pending = s.pending := rfl
@[simp] theorem memWrite_done (o : Nat) (m : List Byte) : (memWrite o m s).done = s.done := rfl
@[simp] theorem memWrite_error (o : Nat) (m : List Byte) : (memWrite o m s).error = s.error := rfl
@[simp] theorem memWrite_wdrop (o : Nat) (m : List Byte) : (memWrite o m s).wdrop = s.wdrop := rfl
@[simp] theorem memWrite_cmd (o : Nat) (m : List Byte) : (memWrite o m s).cmd = s.cmd := rfl
@[simp] theorem memWrite_counter (o : Nat) (m : List Byte) : (memWrite o m s).counter = s.counter := rfl
@[simp] theorem memWrite_src (o : Nat) (m : List Byte) : (memWrite o m s).src = s.src := rfl
@[simp] theorem memWrite_dst (o : Nat) (m : List Byte) : (memWrite o m s).dst = s.dst := rfl
@[simp] theorem memWrite_len (o : Nat) (m : List Byte) : (memWrite o m s).len = s.len := rfl
@[simp] theorem memWrite_aad (o : Nat) (m : List Byte) : (memWrite o m s).aad = s.aad := rfl
@[simp] theorem memWrite_aadLen (o : Nat) (m : List Byte) : (memWrite o m s).aadLen = s.aadLen := rfl
@[simp] theorem memWrite_key (o : Nat) (m : List Byte) : (memWrite o m s).key = s.key := rfl
@[simp] theorem memWrite_nonce (o : Nat) (m : List Byte) : (memWrite o m s).nonce = s.nonce := rfl
@[simp] theorem memWrite_tag (o : Nat) (m : List Byte) : (memWrite o m s).tag = s.tag := rfl
@[simp] theorem memWrite_pkey (o : Nat) (m : List Byte) : (memWrite o m s).pkey = s.pkey := rfl
@[simp] theorem memWrite_state (o : Nat) (m : List Byte) : (memWrite o m s).state = s.state := rfl
@[simp] theorem memWrite_buf (o : Nat) (m : List Byte) : (memWrite o m s).buf = Memory.writeBytes s.buf o m := rfl
@[simp] theorem memWrite_inputs (o : Nat) (m : List Byte) : (memWrite o m s).inputs = s.inputs := rfl
@[simp] theorem memWrite_resp (o : Nat) (m : List Byte) : (memWrite o m s).resp = s.resp := rfl
@[simp] theorem memWrite_draws (o : Nat) (m : List Byte) : (memWrite o m s).draws = s.draws := rfl

/-! ### writeStatus -/

@[simp] theorem writeStatus_cfg (v : Word) : (writeStatus v s).cfg = s.cfg := rfl
@[simp] theorem writeStatus_inReset (v : Word) : (writeStatus v s).inReset = s.inReset := rfl
@[simp] theorem writeStatus_irqEn (v : Word) : (writeStatus v s).irqEn = s.irqEn := rfl
@[simp] theorem writeStatus_pending (v : Word) : (writeStatus v s).pending = s.pending := rfl
@[simp] theorem writeStatus_done (v : Word) : (writeStatus v s).done = (s.done && !v.getLsbD 1) := rfl
@[simp] theorem writeStatus_error (v : Word) : (writeStatus v s).error = (if v.getLsbD 2 then none else s.error) := rfl
@[simp] theorem writeStatus_wdrop (v : Word) : (writeStatus v s).wdrop = (s.wdrop && !v.getLsbD 3) := rfl
@[simp] theorem writeStatus_cmd (v : Word) : (writeStatus v s).cmd = s.cmd := rfl
@[simp] theorem writeStatus_counter (v : Word) : (writeStatus v s).counter = s.counter := rfl
@[simp] theorem writeStatus_src (v : Word) : (writeStatus v s).src = s.src := rfl
@[simp] theorem writeStatus_dst (v : Word) : (writeStatus v s).dst = s.dst := rfl
@[simp] theorem writeStatus_len (v : Word) : (writeStatus v s).len = s.len := rfl
@[simp] theorem writeStatus_aad (v : Word) : (writeStatus v s).aad = s.aad := rfl
@[simp] theorem writeStatus_aadLen (v : Word) : (writeStatus v s).aadLen = s.aadLen := rfl
@[simp] theorem writeStatus_key (v : Word) : (writeStatus v s).key = s.key := rfl
@[simp] theorem writeStatus_nonce (v : Word) : (writeStatus v s).nonce = s.nonce := rfl
@[simp] theorem writeStatus_tag (v : Word) : (writeStatus v s).tag = s.tag := rfl
@[simp] theorem writeStatus_pkey (v : Word) : (writeStatus v s).pkey = s.pkey := rfl
@[simp] theorem writeStatus_state (v : Word) : (writeStatus v s).state = s.state := rfl
@[simp] theorem writeStatus_buf (v : Word) : (writeStatus v s).buf = s.buf := rfl
@[simp] theorem writeStatus_inputs (v : Word) : (writeStatus v s).inputs = s.inputs := rfl
@[simp] theorem writeStatus_resp (v : Word) : (writeStatus v s).resp = s.resp := rfl
@[simp] theorem writeStatus_draws (v : Word) : (writeStatus v s).draws = s.draws := rfl

/-! ### writeCtrl -/

@[simp] theorem writeCtrl_cfg (v : Word) : (writeCtrl v s).cfg = s.cfg := rfl
@[simp] theorem writeCtrl_inReset (v : Word) : (writeCtrl v s).inReset = s.inReset := rfl
@[simp] theorem writeCtrl_irqEn (v : Word) : (writeCtrl v s).irqEn = v.getLsbD 0 := rfl
@[simp] theorem writeCtrl_pending (v : Word) : (writeCtrl v s).pending = s.pending := rfl
@[simp] theorem writeCtrl_done (v : Word) : (writeCtrl v s).done = s.done := rfl
@[simp] theorem writeCtrl_error (v : Word) : (writeCtrl v s).error = s.error := rfl
@[simp] theorem writeCtrl_wdrop (v : Word) : (writeCtrl v s).wdrop = s.wdrop := rfl
@[simp] theorem writeCtrl_cmd (v : Word) : (writeCtrl v s).cmd = s.cmd := rfl
@[simp] theorem writeCtrl_counter (v : Word) : (writeCtrl v s).counter = s.counter := rfl
@[simp] theorem writeCtrl_src (v : Word) : (writeCtrl v s).src = s.src := rfl
@[simp] theorem writeCtrl_dst (v : Word) : (writeCtrl v s).dst = s.dst := rfl
@[simp] theorem writeCtrl_len (v : Word) : (writeCtrl v s).len = s.len := rfl
@[simp] theorem writeCtrl_aad (v : Word) : (writeCtrl v s).aad = s.aad := rfl
@[simp] theorem writeCtrl_aadLen (v : Word) : (writeCtrl v s).aadLen = s.aadLen := rfl
@[simp] theorem writeCtrl_key (v : Word) : (writeCtrl v s).key = s.key := rfl
@[simp] theorem writeCtrl_nonce (v : Word) : (writeCtrl v s).nonce = s.nonce := rfl
@[simp] theorem writeCtrl_tag (v : Word) : (writeCtrl v s).tag = s.tag := rfl
@[simp] theorem writeCtrl_pkey (v : Word) : (writeCtrl v s).pkey = s.pkey := rfl
@[simp] theorem writeCtrl_state (v : Word) : (writeCtrl v s).state = s.state := rfl
@[simp] theorem writeCtrl_buf (v : Word) : (writeCtrl v s).buf = s.buf := rfl
@[simp] theorem writeCtrl_inputs (v : Word) : (writeCtrl v s).inputs = s.inputs := rfl
@[simp] theorem writeCtrl_resp (v : Word) : (writeCtrl v s).resp = s.resp := rfl
@[simp] theorem writeCtrl_draws (v : Word) : (writeCtrl v s).draws = s.draws := rfl

/-! ### respond -/

@[simp] theorem respond_cfg (b : BusStatus) (d : Option Word) : (respond b d s).cfg = s.cfg := rfl
@[simp] theorem respond_inReset (b : BusStatus) (d : Option Word) : (respond b d s).inReset = s.inReset := rfl
@[simp] theorem respond_irqEn (b : BusStatus) (d : Option Word) : (respond b d s).irqEn = s.irqEn := rfl
@[simp] theorem respond_pending (b : BusStatus) (d : Option Word) : (respond b d s).pending = s.pending := rfl
@[simp] theorem respond_done (b : BusStatus) (d : Option Word) : (respond b d s).done = s.done := rfl
@[simp] theorem respond_error (b : BusStatus) (d : Option Word) : (respond b d s).error = s.error := rfl
@[simp] theorem respond_wdrop (b : BusStatus) (d : Option Word) : (respond b d s).wdrop = s.wdrop := rfl
@[simp] theorem respond_cmd (b : BusStatus) (d : Option Word) : (respond b d s).cmd = s.cmd := rfl
@[simp] theorem respond_counter (b : BusStatus) (d : Option Word) : (respond b d s).counter = s.counter := rfl
@[simp] theorem respond_src (b : BusStatus) (d : Option Word) : (respond b d s).src = s.src := rfl
@[simp] theorem respond_dst (b : BusStatus) (d : Option Word) : (respond b d s).dst = s.dst := rfl
@[simp] theorem respond_len (b : BusStatus) (d : Option Word) : (respond b d s).len = s.len := rfl
@[simp] theorem respond_aad (b : BusStatus) (d : Option Word) : (respond b d s).aad = s.aad := rfl
@[simp] theorem respond_aadLen (b : BusStatus) (d : Option Word) : (respond b d s).aadLen = s.aadLen := rfl
@[simp] theorem respond_key (b : BusStatus) (d : Option Word) : (respond b d s).key = s.key := rfl
@[simp] theorem respond_nonce (b : BusStatus) (d : Option Word) : (respond b d s).nonce = s.nonce := rfl
@[simp] theorem respond_tag (b : BusStatus) (d : Option Word) : (respond b d s).tag = s.tag := rfl
@[simp] theorem respond_pkey (b : BusStatus) (d : Option Word) : (respond b d s).pkey = s.pkey := rfl
@[simp] theorem respond_state (b : BusStatus) (d : Option Word) : (respond b d s).state = s.state := rfl
@[simp] theorem respond_buf (b : BusStatus) (d : Option Word) : (respond b d s).buf = s.buf := rfl
@[simp] theorem respond_inputs (b : BusStatus) (d : Option Word) : (respond b d s).inputs = s.inputs := rfl
@[simp] theorem respond_resp (b : BusStatus) (d : Option Word) : (respond b d s).resp = some { status := b, data := d } := rfl
@[simp] theorem respond_draws (b : BusStatus) (d : Option Word) : (respond b d s).draws = s.draws := rfl

/-! ### releaseReset -/

@[simp] theorem releaseReset_cfg : (releaseReset s).cfg = s.cfg := rfl
@[simp] theorem releaseReset_inReset : (releaseReset s).inReset = false := rfl
@[simp] theorem releaseReset_irqEn : (releaseReset s).irqEn = s.irqEn := rfl
@[simp] theorem releaseReset_pending : (releaseReset s).pending = s.pending := rfl
@[simp] theorem releaseReset_done : (releaseReset s).done = s.done := rfl
@[simp] theorem releaseReset_error : (releaseReset s).error = s.error := rfl
@[simp] theorem releaseReset_wdrop : (releaseReset s).wdrop = s.wdrop := rfl
@[simp] theorem releaseReset_cmd : (releaseReset s).cmd = s.cmd := rfl
@[simp] theorem releaseReset_counter : (releaseReset s).counter = s.counter := rfl
@[simp] theorem releaseReset_src : (releaseReset s).src = s.src := rfl
@[simp] theorem releaseReset_dst : (releaseReset s).dst = s.dst := rfl
@[simp] theorem releaseReset_len : (releaseReset s).len = s.len := rfl
@[simp] theorem releaseReset_aad : (releaseReset s).aad = s.aad := rfl
@[simp] theorem releaseReset_aadLen : (releaseReset s).aadLen = s.aadLen := rfl
@[simp] theorem releaseReset_key : (releaseReset s).key = s.key := rfl
@[simp] theorem releaseReset_nonce : (releaseReset s).nonce = s.nonce := rfl
@[simp] theorem releaseReset_tag : (releaseReset s).tag = s.tag := rfl
@[simp] theorem releaseReset_pkey : (releaseReset s).pkey = s.pkey := rfl
@[simp] theorem releaseReset_state : (releaseReset s).state = s.state := rfl
@[simp] theorem releaseReset_buf : (releaseReset s).buf = s.buf := rfl
@[simp] theorem releaseReset_inputs : (releaseReset s).inputs = s.inputs := rfl
@[simp] theorem releaseReset_resp : (releaseReset s).resp = s.resp := rfl
@[simp] theorem releaseReset_draws : (releaseReset s).draws = s.draws := rfl

/-! ### assertReset -/

@[simp] theorem assertReset_cfg : (assertReset s).cfg = s.cfg := rfl
@[simp] theorem assertReset_inReset : (assertReset s).inReset = true := rfl
@[simp] theorem assertReset_irqEn : (assertReset s).irqEn = false := rfl
@[simp] theorem assertReset_pending : (assertReset s).pending = none := rfl
@[simp] theorem assertReset_done : (assertReset s).done = false := rfl
@[simp] theorem assertReset_error : (assertReset s).error = none := rfl
@[simp] theorem assertReset_wdrop : (assertReset s).wdrop = false := rfl
@[simp] theorem assertReset_cmd : (assertReset s).cmd = 0 := rfl
@[simp] theorem assertReset_counter : (assertReset s).counter = 0 := rfl
@[simp] theorem assertReset_src : (assertReset s).src = 0 := rfl
@[simp] theorem assertReset_dst : (assertReset s).dst = 0 := rfl
@[simp] theorem assertReset_len : (assertReset s).len = 0 := rfl
@[simp] theorem assertReset_aad : (assertReset s).aad = 0 := rfl
@[simp] theorem assertReset_aadLen : (assertReset s).aadLen = 0 := rfl
@[simp] theorem assertReset_key : (assertReset s).key = Vector.replicate 8 0 := rfl
@[simp] theorem assertReset_nonce : (assertReset s).nonce = Vector.replicate 3 0 := rfl
@[simp] theorem assertReset_tag : (assertReset s).tag = Vector.replicate 4 0 := rfl
@[simp] theorem assertReset_pkey : (assertReset s).pkey = Vector.replicate 8 0 := rfl
@[simp] theorem assertReset_state : (assertReset s).state = Vector.replicate 16 0 := rfl
@[simp] theorem assertReset_buf : (assertReset s).buf = bufAfterReset s := rfl
@[simp] theorem assertReset_inputs : (assertReset s).inputs = s.inputs := rfl
@[simp] theorem assertReset_resp : (assertReset s).resp = s.resp := rfl
@[simp] theorem assertReset_draws : (assertReset s).draws = s.draws + 1 := rfl

/-! ### dropWrite -/

@[simp] theorem dropWrite_cfg : (dropWrite s).cfg = s.cfg := rfl
@[simp] theorem dropWrite_inReset : (dropWrite s).inReset = s.inReset := rfl
@[simp] theorem dropWrite_irqEn : (dropWrite s).irqEn = s.irqEn := rfl
@[simp] theorem dropWrite_pending : (dropWrite s).pending = s.pending := rfl
@[simp] theorem dropWrite_done : (dropWrite s).done = s.done := rfl
@[simp] theorem dropWrite_error : (dropWrite s).error = s.error := rfl
@[simp] theorem dropWrite_wdrop : (dropWrite s).wdrop = true := rfl
@[simp] theorem dropWrite_cmd : (dropWrite s).cmd = s.cmd := rfl
@[simp] theorem dropWrite_counter : (dropWrite s).counter = s.counter := rfl
@[simp] theorem dropWrite_src : (dropWrite s).src = s.src := rfl
@[simp] theorem dropWrite_dst : (dropWrite s).dst = s.dst := rfl
@[simp] theorem dropWrite_len : (dropWrite s).len = s.len := rfl
@[simp] theorem dropWrite_aad : (dropWrite s).aad = s.aad := rfl
@[simp] theorem dropWrite_aadLen : (dropWrite s).aadLen = s.aadLen := rfl
@[simp] theorem dropWrite_key : (dropWrite s).key = s.key := rfl
@[simp] theorem dropWrite_nonce : (dropWrite s).nonce = s.nonce := rfl
@[simp] theorem dropWrite_tag : (dropWrite s).tag = s.tag := rfl
@[simp] theorem dropWrite_pkey : (dropWrite s).pkey = s.pkey := rfl
@[simp] theorem dropWrite_state : (dropWrite s).state = s.state := rfl
@[simp] theorem dropWrite_buf : (dropWrite s).buf = s.buf := rfl
@[simp] theorem dropWrite_inputs : (dropWrite s).inputs = s.inputs := rfl
@[simp] theorem dropWrite_resp : (dropWrite s).resp = s.resp := rfl
@[simp] theorem dropWrite_draws : (dropWrite s).draws = s.draws := rfl

/-! ### countDraw -/

@[simp] theorem countDraw_cfg : (countDraw s).cfg = s.cfg := rfl
@[simp] theorem countDraw_inReset : (countDraw s).inReset = s.inReset := rfl
@[simp] theorem countDraw_irqEn : (countDraw s).irqEn = s.irqEn := rfl
@[simp] theorem countDraw_pending : (countDraw s).pending = s.pending := rfl
@[simp] theorem countDraw_done : (countDraw s).done = s.done := rfl
@[simp] theorem countDraw_error : (countDraw s).error = s.error := rfl
@[simp] theorem countDraw_wdrop : (countDraw s).wdrop = s.wdrop := rfl
@[simp] theorem countDraw_cmd : (countDraw s).cmd = s.cmd := rfl
@[simp] theorem countDraw_counter : (countDraw s).counter = s.counter := rfl
@[simp] theorem countDraw_src : (countDraw s).src = s.src := rfl
@[simp] theorem countDraw_dst : (countDraw s).dst = s.dst := rfl
@[simp] theorem countDraw_len : (countDraw s).len = s.len := rfl
@[simp] theorem countDraw_aad : (countDraw s).aad = s.aad := rfl
@[simp] theorem countDraw_aadLen : (countDraw s).aadLen = s.aadLen := rfl
@[simp] theorem countDraw_key : (countDraw s).key = s.key := rfl
@[simp] theorem countDraw_nonce : (countDraw s).nonce = s.nonce := rfl
@[simp] theorem countDraw_tag : (countDraw s).tag = s.tag := rfl
@[simp] theorem countDraw_pkey : (countDraw s).pkey = s.pkey := rfl
@[simp] theorem countDraw_state : (countDraw s).state = s.state := rfl
@[simp] theorem countDraw_buf : (countDraw s).buf = s.buf := rfl
@[simp] theorem countDraw_inputs : (countDraw s).inputs = s.inputs := rfl
@[simp] theorem countDraw_resp : (countDraw s).resp = s.resp := rfl
@[simp] theorem countDraw_draws : (countDraw s).draws = s.draws + 1 := rfl

/-! ### setInputs -/

@[simp] theorem setInputs_cfg (l : List Input) : (setInputs l s).cfg = s.cfg := rfl
@[simp] theorem setInputs_inReset (l : List Input) : (setInputs l s).inReset = s.inReset := rfl
@[simp] theorem setInputs_irqEn (l : List Input) : (setInputs l s).irqEn = s.irqEn := rfl
@[simp] theorem setInputs_pending (l : List Input) : (setInputs l s).pending = s.pending := rfl
@[simp] theorem setInputs_done (l : List Input) : (setInputs l s).done = s.done := rfl
@[simp] theorem setInputs_error (l : List Input) : (setInputs l s).error = s.error := rfl
@[simp] theorem setInputs_wdrop (l : List Input) : (setInputs l s).wdrop = s.wdrop := rfl
@[simp] theorem setInputs_cmd (l : List Input) : (setInputs l s).cmd = s.cmd := rfl
@[simp] theorem setInputs_counter (l : List Input) : (setInputs l s).counter = s.counter := rfl
@[simp] theorem setInputs_src (l : List Input) : (setInputs l s).src = s.src := rfl
@[simp] theorem setInputs_dst (l : List Input) : (setInputs l s).dst = s.dst := rfl
@[simp] theorem setInputs_len (l : List Input) : (setInputs l s).len = s.len := rfl
@[simp] theorem setInputs_aad (l : List Input) : (setInputs l s).aad = s.aad := rfl
@[simp] theorem setInputs_aadLen (l : List Input) : (setInputs l s).aadLen = s.aadLen := rfl
@[simp] theorem setInputs_key (l : List Input) : (setInputs l s).key = s.key := rfl
@[simp] theorem setInputs_nonce (l : List Input) : (setInputs l s).nonce = s.nonce := rfl
@[simp] theorem setInputs_tag (l : List Input) : (setInputs l s).tag = s.tag := rfl
@[simp] theorem setInputs_pkey (l : List Input) : (setInputs l s).pkey = s.pkey := rfl
@[simp] theorem setInputs_state (l : List Input) : (setInputs l s).state = s.state := rfl
@[simp] theorem setInputs_buf (l : List Input) : (setInputs l s).buf = s.buf := rfl
@[simp] theorem setInputs_inputs (l : List Input) : (setInputs l s).inputs = l := rfl
@[simp] theorem setInputs_resp (l : List Input) : (setInputs l s).resp = s.resp := rfl
@[simp] theorem setInputs_draws (l : List Input) : (setInputs l s).draws = s.draws := rfl

end Sys2Proof.Machine
end

