-- ==== Sys2Proof/Laws/HostBus.lean ====
section
/-! SUPPORT. The register map and what one host transaction can do (10_state.md R22, R46 to R48, 20_memory.md R67 to R69). -/

namespace Sys2Proof.Machine

/-- The map of R22 is read back: the register at a register's offset is that register. -/
theorem regAt_offset (r : Reg) : regAt r.offset = some r := by
  cases r with
  | key i => fin_cases i <;> rfl
  | nonce i => fin_cases i <;> rfl
  | tag i => fin_cases i <;> rfl
  | pkey i => fin_cases i <;> rfl
  | state i => fin_cases i <;> rfl
  | _ => rfl

/-- … and no register is found at another offset. -/
theorem offset_of_regAt {off : Nat} {r : Reg} (h : regAt off = some r) : off = r.offset := by
  have := List.find?_some h
  simpa using (beq_iff_eq.mp this).symm

theorem offset_lt (r : Reg) : r.offset < 0x100 := by cases r <;> simp only [Reg.offset] <;> omega

theorem offset_mod_four (r : Reg) : r.offset % 4 = 0 := by cases r <;> simp only [Reg.offset] <;> omega

theorem locate_reg (n : Nat) (r : Reg) : locate n r.offset = .reg r := by
  have h := offset_lt r
  rw [locate, if_pos (by omega), regAt_offset]

/-- A location that is a register lies at the register's offset. -/
theorem offset_of_locate_reg {n off : Nat} {r : Reg} (h : locate n off = .reg r) : off = r.offset := by
  unfold locate at h
  split at h
  · split at h
    · rename_i q hq
      injection h with h
      exact h ▸ offset_of_regAt hq
    · simp at h
  · split at h <;> simp at h

theorem locate_buffer (n o : Nat) (h : o < n) : locate n (0x10000 + o) = .buffer o := by
  have h1 : ¬ (0x10000 + o < 0x10000) := by omega
  have h2 : 0x10000 + o < 0x10000 + n := by omega
  rw [locate, if_neg h1, if_pos h2, Nat.add_sub_cancel_left]

/-- A location in the buffer window lies in the buffer. -/
theorem lt_of_locate_buffer {n off o : Nat} (h : locate n off = .buffer o) : o < n ∧ off = 0x10000 + o := by
  unfold locate at h
  split at h
  · split at h <;> simp at h
  · split at h
    · simp only [Location.buffer.injEq] at h
      omega
    · simp at h

/-- When an access gets an ERROR response (R67 to R69). -/
theorem busError_iff (a : Access) (s : State) :
    busError a s = true ↔ a.wf = false ∨ locate s.cfg.bufBytes a.offset = .unmapped := by
  simp only [busError, Bool.or_eq_true, decide_eq_true_eq, Bool.not_eq_true']

/-- A write without an ERROR response is 32 bits wide, with all byte enables, at a word-aligned offset (R67, R68). -/
theorem write_of_no_busError {off : BitVec 17} {width : Width} {en : BitVec 4} {v : Word} {s : State}
    (h : busError (.write off width en v) s = false) : width = .word ∧ en = 0xF#4 ∧ off.toNat % 4 = 0 := by
  have := (busError_iff (.write off width en v) s).not.1 (by simp [h])
  simp only [Access.wf, not_or, Bool.not_eq_false, Bool.and_eq_true, decide_eq_true_eq, beq_iff_eq] at this
  exact ⟨this.1.1.1, this.1.1.2, this.1.2⟩

/-- What one host transaction can do: an ERROR response and nothing else; a free draw; a plain read; a dropped write; a write that
takes effect. -/
theorem hostAccess_cases (a : Access) (s : State) :
    (busError a s = true ∧ ∃ d, hostAccess a s = respond .error d s) ∨
    (busError a s = false ∧ s.busy = true ∧ drawnWhileBusy (locate s.cfg.bufBytes a.offset) = true ∧
      hostAccess a s = respond .okay (some (Config.busyRead s.draws)) (countDraw s)) ∨
    (busError a s = false ∧ ∃ w, hostAccess a s = respond .okay (some w) s) ∨
    (busError a s = false ∧ s.busy = true ∧ (∃ off width en v, a = .write off width en v) ∧
      hostAccess a s = respond .okay none (dropWrite s)) ∨
    (busError a s = false ∧ ∃ off width en v, a = .write off width en v ∧
      (s.busy = true → writableWhileBusy (locate s.cfg.bufBytes off.toNat) = true) ∧
      hostAccess a s = respond .okay none (writeLocation (locate s.cfg.bufBytes off.toNat) v s)) := by
  cases a with
  | read off width =>
    simp only [hostAccess, hostRead]
    by_cases he : busError (.read off width) s = true
    · exact .inl ⟨he, some 0, by simp [he]⟩
    · simp only [Bool.not_eq_true] at he
      by_cases hb : (s.busy && drawnWhileBusy (locate s.cfg.bufBytes (Access.offset (.read off width)))) = true
      · simp only [Bool.and_eq_true] at hb
        exact .inr (.inl ⟨he, hb.1, hb.2, by simp [he, hb.1, hb.2]⟩)
      · exact .inr (.inr (.inl ⟨he, _, by simp only [he, hb]; rfl⟩))
  | write off width en v =>
    simp only [hostAccess, hostWrite]
    by_cases he : busError (.write off width en v) s = true
    · exact .inl ⟨he, none, by simp [he]⟩
    · simp only [Bool.not_eq_true] at he
      by_cases hb : (s.busy && !writableWhileBusy (locate s.cfg.bufBytes (Access.offset (.write off width en v)))) = true
      · refine .inr (.inr (.inr (.inl ⟨he, ?_, ⟨off, width, en, v, rfl⟩, by simp only [he, hb]; rfl⟩)))
        simp only [Bool.and_eq_true] at hb
        exact hb.1
      · refine .inr (.inr (.inr (.inr ⟨he, off, width, en, v, rfl, ?_, by simp only [he, hb]; rfl⟩)))
        intro h
        simpa [h, Access.offset] using hb

end Sys2Proof.Machine
end

