-- ==== Sys2Proof/Laws/Bytes.lean ====
section
/-! SUPPORT. Byte strings: lengths, the little-endian round trips of 00_scope.md R13, R14, and XOR. -/

namespace Sys2Proof.Machine

@[simp] theorem leBytes_length (n v : Nat) : (leBytes n v).length = n := by
  induction n generalizing v with
  | zero => rfl
  | succ n ih => simp [leBytes, ih]

@[simp] theorem le64_length (v : Nat) : (le64 v).length = 8 := leBytes_length 8 v

@[simp] theorem zeros_length (n : Nat) : (zeros n).length = n := by simp [zeros]

@[simp] theorem wordBytes_length (w : Word) : (wordBytes w).length = 4 := leBytes_length 4 w.toNat

/-- A byte string of length n is an integer below 2^(8n). -/
theorem leInt_lt (m : List Byte) : leInt m < 2 ^ (8 * m.length) := by
  induction m with
  | nil => simp [leInt]
  | cons b m ih =>
    have hb : b.toNat < 256 := b.isLt
    have hp : 2 ^ (8 * (b :: m).length) = 256 * 2 ^ (8 * m.length) := by
      rw [List.length_cons, Nat.mul_succ, pow_add]; omega
    rw [leInt, hp]; omega

theorem leInt_append (m k : List Byte) : leInt (m ++ k) = leInt m + 2 ^ (8 * m.length) * leInt k := by
  induction m with
  | nil => simp [leInt]
  | cons b m ih =>
    have hp : 2 ^ (8 * (b :: m).length) = 256 * 2 ^ (8 * m.length) := by
      rw [List.length_cons, Nat.mul_succ, pow_add]; omega
    rw [List.cons_append, leInt, leInt, ih, hp, Nat.mul_add, Nat.mul_assoc]; omega

/-- `le_int(le_bytes_n(v)) = v mod 2^(8n)` (R13). -/
theorem leInt_leBytes (n v : Nat) : leInt (leBytes n v) = v % 2 ^ (8 * n) := by
  induction n generalizing v with
  | zero => simp [leBytes, leInt, Nat.mod_one]
  | succ n ih =>
    have hp : 2 ^ (8 * (n + 1)) = 256 * 2 ^ (8 * n) := by rw [Nat.mul_succ, pow_add]; omega
    rw [leBytes, leInt, ih, hp, Nat.mod_mul]
    simp

/-- `le_bytes_n(le_int(m)) = m` for a string of n bytes. -/
theorem leBytes_leInt (m : List Byte) : leBytes m.length (leInt m) = m := by
  induction m with
  | nil => rfl
  | cons b m ih =>
    have hb : b.toNat < 256 := b.isLt
    have hd : (b.toNat + 256 * leInt m) / 256 = leInt m := by omega
    rw [List.length_cons, leBytes, leInt, hd, ih]
    congr 1
    apply BitVec.eq_of_toNat_eq
    simpa using hb

/-- Byte i of `le_bytes_n(v)`. -/
theorem leBytes_getElem (n v i : Nat) (h : i < (leBytes n v).length) :
    (leBytes n v)[i] = BitVec.ofNat 8 (v / 256 ^ i) := by
  induction n generalizing v i with
  | zero => simp at h
  | succ n ih =>
    cases i with
    | zero => simp [leBytes]
    | succ i =>
      simp only [leBytes, List.getElem_cons_succ]
      rw [ih, Nat.div_div_eq_div_mul, pow_succ, Nat.mul_comm]

/-- A word is read back from its four bytes. -/
theorem ofNat_leInt_wordBytes (w : Word) : BitVec.ofNat 32 (leInt (wordBytes w)) = w := by
  rw [wordBytes, leInt_leBytes]
  apply BitVec.eq_of_toNat_eq
  have := w.isLt
  simp only [BitVec.toNat_ofNat]
  omega

@[simp] theorem wordsToBytes_length (ws : List Word) : (wordsToBytes ws).length = 4 * ws.length := by
  induction ws with
  | nil => rfl
  | cons w ws ih => rw [wordsToBytes, List.flatMap_cons, List.length_append, ← wordsToBytes, ih]; simp; omega

theorem slice_length (m : List Byte) (i j : Nat) : (slice m i j).length = min (j - i) (m.length - i) := by
  simp [slice]

/-- The four bytes of word i of a string of words. -/
theorem slice_wordsToBytes (ws : List Word) (i : Nat) (h : i < ws.length) :
    slice (wordsToBytes ws) (4 * i) (4 * i + 4) = wordBytes ws[i] := by
  induction ws generalizing i with
  | nil => simp at h
  | cons w ws ih =>
    have hw : wordsToBytes (w :: ws) = wordBytes w ++ wordsToBytes ws := by simp [wordsToBytes]
    cases i with
    | zero =>
      rw [hw, slice]
      simp only [Nat.mul_zero, List.drop_zero, Nat.zero_add, Nat.sub_zero, List.getElem_cons_zero]
      exact List.take_left' (wordBytes_length w)
    | succ i =>
      have hi : i < ws.length := by simpa using h
      rw [List.getElem_cons_succ, ← ih i hi, hw, slice, slice]
      have : 4 * (i + 1) = (wordBytes w).length + 4 * i := by simp; omega
      rw [this, ← List.drop_drop, List.drop_left]
      congr 1
      omega

/-- `bytes_to_words(words_to_bytes(w)) = w` (R14). -/
theorem bytesToWords_wordsToBytes {n : Nat} (ws : Vector Word n) :
    bytesToWords n (wordsToBytes ws.toList) = ws := by
  apply Vector.ext
  intro i hi
  have hl : i < ws.toList.length := by simpa using hi
  rw [bytesToWords, Vector.getElem_ofFn, slice_wordsToBytes _ _ hl, ofNat_leInt_wordBytes]
  simp

@[simp] theorem xorBytes_length (m k : List Byte) : (xorBytes m k).length = min m.length k.length := by simp [xorBytes]

theorem xorBytes_getElem (m k : List Byte) (i : Nat) (h : i < (xorBytes m k).length) :
    (xorBytes m k)[i] = m[i]'(by simp at h; omega) ^^^ k[i]'(by simp at h; omega) := by
  simp [xorBytes]

/-- `x ^ k ^ k = x` (40_chacha20.md R105), bytewise. -/
theorem xorBytes_xorBytes (m k : List Byte) (h : m.length ≤ k.length) : xorBytes (xorBytes m k) k = m := by
  apply List.ext_getElem
  · simp; omega
  · intro i h1 h2
    rw [xorBytes_getElem, xorBytes_getElem, BitVec.xor_assoc, BitVec.xor_self, BitVec.xor_zero]

end Sys2Proof.Machine
end

