-- ==== Sys2Proof/Laws/ChaCha20.lean ====
section
/-! SUPPORT. The ChaCha20 functions: lengths and byte views (40_chacha20.md R103 to R105). -/

namespace Sys2Proof.Machine

theorem doubleRounds_succ (n : Nat) (s : Vector Word 16) : doubleRounds (n + 1) s = doubleRounds n (doubleRound s) := rfl

/-- "add back the initial state" (R104), word by word. -/
theorem blockWords_getElem (kw : Vector Word 8) (ctr : Word) (nw : Vector Word 3) (i : Nat) (h : i < 16) :
    (blockWords kw ctr nw)[i] = (initState kw ctr nw)[i] + (doubleRounds 10 (initState kw ctr nw))[i] := by
  simp [blockWords]

/-- The keystream block is 64 bytes (R104). -/
@[simp] theorem block_length (key : List Byte) (ctr : Word) (nonce : List Byte) : (block key ctr nonce).length = 64 := by
  simp [block]

/-- A block from the bytes of key and nonce words is the block of those words (R104, R107). -/
theorem block_wordsToBytes (kw : Vector Word 8) (ctr : Word) (nw : Vector Word 3) :
    block (wordsToBytes kw.toList) ctr (wordsToBytes nw.toList) = wordsToBytes (blockWords kw ctr nw).toList := by
  rw [block, bytesToWords_wordsToBytes, bytesToWords_wordsToBytes]

/-- Equal-sized pieces, all full but the last, joined: the length. -/
theorem flatMap_chunk_length (f : Nat → List Byte) (w len : Nat) (hw : 0 < w)
    (hf : ∀ j, w * j < len → (f j).length = min w (len - w * j)) (n : Nat) (hn : w * n < len + w) :
    ((List.range n).flatMap f).length = min (w * n) len := by
  induction n with
  | zero => simp
  | succ n ih =>
    have h1 : w * (n + 1) = w * n + w := Nat.mul_succ w n
    rw [List.range_succ, List.flatMap_append, List.length_append, ih (by omega)]
    simp only [List.flatMap_cons, List.flatMap_nil, List.append_nil]
    rw [hf n (by omega)]
    omega

/-- Equal-sized pieces, all full but the last, joined: byte k lies in piece k / w at place k % w. -/
theorem flatMap_chunk_getElem (f : Nat → List Byte) (w len : Nat) (hw : 0 < w)
    (hf : ∀ j, w * j < len → (f j).length = min w (len - w * j)) (n : Nat) (hn : w * n < len + w) (k : Nat)
    (hk : k < ((List.range n).flatMap f).length) :
    ((List.range n).flatMap f)[k]? = (f (k / w))[k % w]? := by
  induction n with
  | zero => simp at hk
  | succ n ih =>
    have h1 : w * (n + 1) = w * n + w := Nat.mul_succ w n
    have hl := flatMap_chunk_length f w len hw hf n (by omega)
    have hl1 := flatMap_chunk_length f w len hw hf (n + 1) hn
    rw [List.range_succ, List.flatMap_append]
    simp only [List.flatMap_cons, List.flatMap_nil, List.append_nil]
    by_cases h : k < ((List.range n).flatMap f).length
    · rw [List.getElem?_append_left h, ih (by omega) h]
    · rw [List.getElem?_append_right (by omega), hl]
      have hk' : w * n ≤ k ∧ k < w * n + w := by omega
      have hd : k / w = n := Nat.div_eq_of_lt_le (by rw [Nat.mul_comm]; exact hk'.1) (by rw [Nat.mul_comm, h1]; exact hk'.2)
      have hm : k % w = k - w * n := by rw [Nat.mod_eq_sub_mul_div, hd]
      rw [hd, hm]
      congr 1
      omega

theorem streamPiece_length (key : List Byte) (ctr : Word) (nonce m : List Byte) (j : Nat) (_ : 64 * j < m.length) :
    (xorBytes (slice m (64 * j) (64 * j + 64)) (block key (ctr + BitVec.ofNat 32 j) nonce)).length
      = min 64 (m.length - 64 * j) := by
  rw [xorBytes_length, slice_length, block_length]
  omega

/-- "The output has the length of m" (R105). -/
@[simp] theorem streamXor_length (key : List Byte) (ctr : Word) (nonce m : List Byte) :
    (streamXor key ctr nonce m).length = m.length := by
  rw [streamXor, flatMap_chunk_length _ 64 m.length (by omega) (streamPiece_length key ctr nonce m) _ (by omega)]
  omega

/-- Byte k of the output is byte k of the message XOR byte k mod 64 of the block at counter `ctr + k div 64` (R105). -/
theorem streamXor_getElem (key : List Byte) (ctr : Word) (nonce m : List Byte) (k : Nat)
    (h : k < (streamXor key ctr nonce m).length) :
    (streamXor key ctr nonce m)[k] =
      m[k]'(by simpa using h) ^^^ (block key (ctr + BitVec.ofNat 32 (k / 64)) nonce)[k % 64]'(by simp; omega) := by
  have hk : k < m.length := by simpa using h
  have h1 := flatMap_chunk_getElem _ 64 m.length (by omega) (streamPiece_length key ctr nonce m)
    ((m.length + 63) / 64) (by omega) k (by rw [← streamXor]; exact h)
  rw [← streamXor, List.getElem?_eq_getElem h, List.getElem?_eq_getElem (by
    rw [streamPiece_length _ _ _ _ _ (by omega)]; omega)] at h1
  rw [Option.some.inj h1, xorBytes_getElem]
  congr 1
  simp only [slice, List.getElem_take, List.getElem_drop]
  congr 1
  omega

end Sys2Proof.Machine
end

