-- ==== Sys2Proof/Laws/Ops.lean ====
section
/-! SUPPORT. What validation, issue and a command can do, said once (60_exceptions.md R163, 10_state.md R44, R45). -/

namespace Sys2Proof.Machine

/-- The range check in plain numbers (R164). -/
theorem Region.fits_iff (r : Region) (n : Nat) : r.fits n = true ↔ r.off + r.len ≤ n := by
  simp only [Region.fits, decide_eq_true_eq]

/-- The overlap check in plain numbers (R165). -/
theorem Region.overlaps_iff (r t : Region) :
    r.overlaps t = true ↔ 0 < r.len ∧ 0 < t.len ∧ r.off < t.off + t.len ∧ t.off < r.off + r.len := by
  simp only [Region.overlaps, Bool.and_eq_true, decide_eq_true_eq, and_assoc]

/-- A command is accepted exactly when none of the checks of R163 applies. -/
theorem validate_eq_none (i : Instr) (s : State) :
    validate i s = none ↔
      indexAlias i = false ∧ (∀ r ∈ regions i s, r.off + r.len ≤ s.cfg.bufBytes) ∧
      (writesDst i = true → s.src ≠ s.dst → (srcRegion s).overlaps (dstRegion s) = false) ∧
      (readsAad i = true → (aadRegion s).overlaps (dstRegion s) = false) ∧ counterOverflows i s = false := by
  have hr : (regions i s).any (fun r => !r.fits s.cfg.bufBytes) = true ↔
      ¬ ∀ r ∈ regions i s, r.off + r.len ≤ s.cfg.bufBytes := by
    simp [Region.fits, List.any_eq_true]
  unfold validate
  split
  · simp [*]
  · split
    · rename_i h1 h2
      simp only [reduceCtorEq, false_iff]
      intro h
      exact hr.1 h2 h.2.1
    · rename_i h1 h2
      have h2' : ∀ r ∈ regions i s, r.off + r.len ≤ s.cfg.bufBytes := by
        by_contra hc
        exact h2 (hr.2 hc)
      simp only [Bool.not_eq_true] at h1
      split
      · rename_i h3
        simp only [Bool.and_eq_true, decide_eq_true_eq] at h3
        simp only [reduceCtorEq, false_iff]
        intro h
        simp [h.2.2.1 h3.1.1 h3.1.2] at h3
      · rename_i h3
        have h3' : writesDst i = true → s.src ≠ s.dst → (srcRegion s).overlaps (dstRegion s) = false := by
          intro ha hb
          simpa [ha, hb] using h3
        split
        · rename_i h4
          simp only [Bool.and_eq_true] at h4
          simp only [reduceCtorEq, false_iff]
          intro h
          simp [h.2.2.2.1 h4.1] at h4
        · rename_i h4
          have h4' : readsAad i = true → (aadRegion s).overlaps (dstRegion s) = false := by
            intro ha
            simpa [ha] using h4
          split <;> simp_all

/-- Validation reads the command's registers and the buffer size alone (R163). -/
theorem validate_congr {i : Instr} {s t : State} (hc : t.cfg = s.cfg) (h0 : t.counter = s.counter) (h1 : t.src = s.src)
    (h2 : t.dst = s.dst) (h3 : t.len = s.len) (h4 : t.aad = s.aad) (h5 : t.aadLen = s.aadLen) :
    validate i t = validate i s := by
  have ha : srcRegion t = srcRegion s := by simp [srcRegion, h1, h3]
  have hb : dstRegion t = dstRegion s := by simp [dstRegion, h2, h3]
  have hd : aadRegion t = aadRegion s := by simp [aadRegion, h4, h5]
  have hr : regions i t = regions i s := by cases i <;> simp [regions, ha, hb, hd]
  have ho : counterOverflows i t = counterOverflows i s := by cases i <;> simp [counterOverflows, h0, h3]
  simp [validate, ha, hb, hd, hr, ho, hc, h1, h2]

theorem runCommand_refused {i : Instr} {f : State → State} {s : State} {e : ErrCode} (h : validate i s = some e) :
    runCommand i f s = .next (reportError e s) := by
  simp [runCommand, h]

theorem runCommand_accepted {i : Instr} {f : State → State} {s : State} (h : validate i s = none) :
    runCommand i f s = .next (complete (f s)) := by
  simp [runCommand, h]

/-- An issue stores the word and clears the report; then it reports the first error of R163, or the command is pending (R44). -/
theorem issue_cases (v : Word) (s : State) :
    (∃ e, validateWord v s = some e ∧
        issue v s = { s with cmd := v, pending := none, done := true, error := some e }) ∨
    (∃ i, decode v = .ok i ∧ validate i s = none ∧
        issue v s = { s with cmd := v, pending := some i, done := false, error := none }) := by
  unfold issue validateWord
  cases hd : decode v with
  | error r => exact .inl ⟨.illegalCmd, rfl, rfl⟩
  | ok i =>
    have hv : validate i (clearReport { s with cmd := v }) = validate i s :=
      validate_congr rfl rfl rfl rfl rfl rfl rfl
    simp only [hv]
    cases hw : validate i s with
    | some e => exact .inl ⟨e, rfl, rfl⟩
    | none => exact .inr ⟨i, rfl, hw, rfl⟩

/-- A command whose checks find an error does nothing but report it. -/
theorem exec_reports {i : Instr} {s : State} {e : ErrCode} (h : validate i s = some e) :
    exec i s = .next (reportError e s) := by
  cases i <;> simp only [exec, execQr, execBlock, execStream, execPoly, execKeygen, execAeadEnc, execAeadDec] <;>
    exact runCommand_refused h

theorem effectStream_buf (s : State) : ∃ m, m.length = s.len.toNat ∧
    (effectStream s).buf = Memory.writeBytes s.buf s.dst.toNat m :=
  ⟨streamXor (keyBytes s) s.counter (nonceBytes s) (memRead (srcRegion s) s), by
    rw [streamXor_length, memRead_length, srcRegion], by simp only [effectStream, memWrite_buf, dstRegion]⟩

theorem effectAeadEnc_buf (s : State) : ∃ m, m.length = s.len.toNat ∧
    (effectAeadEnc s).buf = Memory.writeBytes s.buf s.dst.toNat m :=
  ⟨streamXor (keyBytes s) 1 (constantBytes s ++ ivBytes s) (memRead (srcRegion s) s), by
    rw [streamXor_length, memRead_length, srcRegion], by
    simp only [effectAeadEnc, memWrite_buf, dstRegion, aeadEncrypt]⟩

theorem effectAeadDec_buf (s : State) : ∃ m, m.length = s.len.toNat ∧
    (effectAeadDec s).buf = Memory.writeBytes s.buf s.dst.toNat m :=
  ⟨streamXor (keyBytes s) 1 (constantBytes s ++ ivBytes s) (memRead (srcRegion s) s), by
    rw [streamXor_length, memRead_length, srcRegion], by
    simp only [effectAeadDec, memWrite_buf, dstRegion, aeadDecrypt]⟩

/-- What a command can do: its error report and nothing else, or a completion that writes at most STATE, PKEY, TAG and, for
STREAM, AEAD_ENC and AEAD_DEC, LEN bytes of the buffer at DST. -/
theorem exec_cases (i : Instr) (s : State) :
    (∃ e, validate i s = some e ∧ exec i s = .next (reportError e s)) ∨
    (validate i s = none ∧ ∃ x p t b,
      exec i s = .next (complete { s with state := x, pkey := p, tag := t, buf := b }) ∧
      (writesDst i = false → b = s.buf) ∧
      (writesDst i = true → ∃ m, m.length = s.len.toNat ∧ b = Memory.writeBytes s.buf s.dst.toNat m)) := by
  cases hv : validate i s with
  | some e => exact .inl ⟨e, rfl, exec_reports hv⟩
  | none =>
    refine .inr ⟨rfl, ?_⟩
    cases i with
    | qr a b c d =>
      refine ⟨(effectQr a b c d s).state, s.pkey, s.tag, s.buf, ?_, fun _ => rfl, by simp [writesDst]⟩
      rw [exec, execQr, runCommand_accepted hv]; rfl
    | block =>
      refine ⟨(effectBlock s).state, s.pkey, s.tag, s.buf, ?_, fun _ => rfl, by simp [writesDst]⟩
      rw [exec, execBlock, runCommand_accepted hv]; rfl
    | stream =>
      refine ⟨s.state, s.pkey, s.tag, (effectStream s).buf, ?_, by simp [writesDst], fun _ => effectStream_buf s⟩
      rw [exec, execStream, runCommand_accepted hv]; rfl
    | poly =>
      refine ⟨s.state, s.pkey, (effectPoly s).tag, s.buf, ?_, fun _ => rfl, by simp [writesDst]⟩
      rw [exec, execPoly, runCommand_accepted hv]; rfl
    | keygen =>
      refine ⟨s.state, (effectKeygen s).pkey, s.tag, s.buf, ?_, fun _ => rfl, by simp [writesDst]⟩
      rw [exec, execKeygen, runCommand_accepted hv]; rfl
    | aeadEnc =>
      refine ⟨s.state, s.pkey, (effectAeadEnc s).tag, (effectAeadEnc s).buf, ?_, by simp [writesDst],
        fun _ => effectAeadEnc_buf s⟩
      rw [exec, execAeadEnc, runCommand_accepted hv]; rfl
    | aeadDec =>
      refine ⟨s.state, s.pkey, (effectAeadDec s).tag, (effectAeadDec s).buf, ?_, by simp [writesDst],
        fun _ => effectAeadDec_buf s⟩
      rw [exec, execAeadDec, runCommand_accepted hv]; rfl

end Sys2Proof.Machine
end

