-- ==== Sys2Proof/Laws/Step.lean ====
section
/-! SUPPORT. What one step can do. -/

namespace Sys2Proof.Machine

theorem step_nil {s : State} (h : s.inputs = []) : step s = engineStep s := by simp [step, moveNext, h]

theorem step_cons {s : State} {e : Input} {rest : List Input} (h : s.inputs = e :: rest) :
    step s = takeInput e (setInputs rest s) := by simp [step, moveNext, h]

theorem engineStep_pending {s : State} {i : Instr} (h : s.pending = some i) : engineStep s = exec i s := by
  simp [engineStep, h]

theorem engineStep_idle {s : State} (h : s.pending = none) : engineStep s = .next s := by simp [engineStep, h]

/-- A step that answers a next state is the engine's turn with or without a command pending, one host transaction out of reset, or
an edge of `rst_n`; each acts on the state whose inputs are those after the one taken. -/
theorem step_cases {s t : State} (h : step s = .next t) :
    ((s.inputs = [] ∨ ∃ rest, s.inputs = .engine :: rest) ∧
      ((∃ i, s.pending = some i ∧ exec i (setInputs s.inputs.tail s) = .next t) ∨
        (s.pending = none ∧ t = setInputs s.inputs.tail s))) ∨
    (∃ a rest, s.inputs = .host a :: rest ∧ s.inReset = false ∧ t = hostAccess a (setInputs rest s)) ∨
    (∃ rest, s.inputs = .resetAssert :: rest ∧ t = assertReset (setInputs rest s)) ∨
    (∃ rest, s.inputs = .resetRelease :: rest ∧ t = releaseReset (setInputs rest s)) := by
  have eng : ∀ l, engineStep (setInputs l s) = .next t →
      (∃ i, s.pending = some i ∧ exec i (setInputs l s) = .next t) ∨ (s.pending = none ∧ t = setInputs l s) := by
    intro l hu
    cases hp : s.pending with
    | some i => exact .inl ⟨i, rfl, by rwa [engineStep_pending (s := setInputs l s) hp] at hu⟩
    | none =>
      rw [engineStep_idle (s := setInputs l s) hp] at hu
      injection hu with hu
      exact .inr ⟨rfl, hu.symm⟩
  cases hin : s.inputs with
  | nil =>
    rw [step_nil hin] at h
    exact .inl ⟨.inl rfl, eng [] (by rw [← hin]; exact h)⟩
  | cons e rest =>
    rw [step_cons hin] at h
    cases e with
    | engine => exact .inl ⟨.inr ⟨rest, rfl⟩, eng rest h⟩
    | host a =>
      simp only [takeInput] at h
      split at h
      · simp at h
      · rename_i hr
        injection h with h
        exact .inr (.inl ⟨a, rest, rfl, by simpa using hr, h.symm⟩)
    | resetAssert =>
      injection h with h
      exact .inr (.inr (.inl ⟨rest, rfl, h.symm⟩))
    | resetRelease =>
      injection h with h
      exact .inr (.inr (.inr ⟨rest, rfl, h.symm⟩))

/-- Running k + 1 steps from a state whose step answers a next state is running k steps from that state. -/
theorem run_succ_next {k : Nat} {s t : State} (h : step s = .next t) :
    Sys2Proof.core.run (k + 1) s = Sys2Proof.core.run k t := by
  simp only [Host.Core.run]
  rw [show Sys2Proof.core.step s = .next t from h]

end Sys2Proof.Machine
end

