-- ==== Sys2Proof/Laws/Busy.lean ====
section
/-! SUPPORT. What the host can change while a command is pending, and that a command's outputs do not depend on it (10_state.md R46 to
R49). -/

namespace Sys2Proof.Machine

/-- No host transaction touches the coming inputs. -/
@[simp] theorem hostAccess_inputs (a : Access) (s : State) : (hostAccess a s).inputs = s.inputs := by
  have hr : ∀ r v, (writeReg r v s).inputs = s.inputs := by
    intro r v
    cases r <;> first | rfl | skip
    simp only [writeReg]
    rcases issue_cases v s with ⟨e, _, h⟩ | ⟨i, _, _, h⟩ <;> rw [h]
  rcases hostAccess_cases a s with ⟨_, d, h⟩ | ⟨_, _, _, h⟩ | ⟨_, w, h⟩ | ⟨_, _, _, h⟩ | ⟨_, o, w, e, v, _, _, h⟩ <;> rw [h]
  · rfl
  · rfl
  · rfl
  · rfl
  · rw [respond_inputs]
    cases locate s.cfg.bufBytes o.toNat with
    | reg r => exact hr r v
    | buffer k => rfl
    | unmapped => rfl

/-- A host transaction while BUSY changes at most IRQ_EN, the report bits, the response and the count of draws; it sets neither
DONE nor ERR. -/
theorem hostAccess_while_busy {s : State} (hb : s.busy = true) (a : Access) :
    ∃ q d e w r n, hostAccess a s =
        { s with irqEn := q, done := d, error := e, wdrop := w, resp := r, draws := n } ∧
      (s.done = false → d = false) ∧ (s.error = none → e = none) := by
  rcases hostAccess_cases a s with ⟨_, d, h⟩ | ⟨_, _, _, h⟩ | ⟨_, w, h⟩ | ⟨_, _, _, h⟩ | ⟨_, o, w, e, v, _, hw, h⟩ <;> rw [h]
  · exact ⟨s.irqEn, s.done, s.error, s.wdrop, _, s.draws, rfl, id, id⟩
  · exact ⟨s.irqEn, s.done, s.error, s.wdrop, _, _, rfl, id, id⟩
  · exact ⟨s.irqEn, s.done, s.error, s.wdrop, _, s.draws, rfl, id, id⟩
  · exact ⟨s.irqEn, s.done, s.error, true, _, s.draws, rfl, id, id⟩
  · have hw := hw hb
    revert hw
    cases locate s.cfg.bufBytes o.toNat with
    | buffer k => exact nofun
    | unmapped => exact nofun
    | reg r =>
      cases r with
      | ctrl => exact fun _ => ⟨_, s.done, s.error, s.wdrop, _, s.draws, rfl, id, id⟩
      | status =>
        refine fun _ => ⟨s.irqEn, s.done && !v.getLsbD 1, if v.getLsbD 2 then none else s.error, _, _, s.draws, rfl,
          fun h => by simp [h], fun h => by simp [h]⟩
      | _ => exact nofun

/-- The outputs of an accepted command do not depend on IRQ_EN, the report bits, the response, the draws or the coming inputs. -/
theorem exec_accepted {i : Instr} {s : State} (hv : validate i s = none) :
    ∃ x p t b, ∀ q d e w r n l,
      exec i { s with irqEn := q, done := d, error := e, wdrop := w, resp := r, draws := n, inputs := l } =
        .next (complete { s with
          state := x, pkey := p, tag := t, buf := b
          irqEn := q, done := d, error := e, wdrop := w, resp := r, draws := n, inputs := l }) := by
  have hv' : ∀ q d e w r n l, validate i
      { s with irqEn := q, done := d, error := e, wdrop := w, resp := r, draws := n, inputs := l } = none :=
    fun _ _ _ _ _ _ _ => hv ▸ validate_congr rfl rfl rfl rfl rfl rfl rfl
  cases i with
  | qr a b c d =>
    refine ⟨(effectQr a b c d s).state, s.pkey, s.tag, s.buf, fun _ _ _ _ _ _ _ => ?_⟩
    rw [exec, execQr, runCommand_accepted (hv' ..)]; rfl
  | block =>
    refine ⟨(effectBlock s).state, s.pkey, s.tag, s.buf, fun _ _ _ _ _ _ _ => ?_⟩
    rw [exec, execBlock, runCommand_accepted (hv' ..)]; rfl
  | stream =>
    refine ⟨s.state, s.pkey, s.tag, (effectStream s).buf, fun _ _ _ _ _ _ _ => ?_⟩
    rw [exec, execStream, runCommand_accepted (hv' ..)]; rfl
  | poly =>
    refine ⟨s.state, s.pkey, (effectPoly s).tag, s.buf, fun _ _ _ _ _ _ _ => ?_⟩
    rw [exec, execPoly, runCommand_accepted (hv' ..)]; rfl
  | keygen =>
    refine ⟨s.state, (effectKeygen s).pkey, s.tag, s.buf, fun _ _ _ _ _ _ _ => ?_⟩
    rw [exec, execKeygen, runCommand_accepted (hv' ..)]; rfl
  | aeadEnc =>
    refine ⟨s.state, s.pkey, (effectAeadEnc s).tag, (effectAeadEnc s).buf, fun _ _ _ _ _ _ _ => ?_⟩
    rw [exec, execAeadEnc, runCommand_accepted (hv' ..)]; rfl
  | aeadDec =>
    refine ⟨s.state, s.pkey, (effectAeadDec s).tag, (effectAeadDec s).buf, fun _ _ _ _ _ _ _ => ?_⟩
    rw [exec, execAeadDec, runCommand_accepted (hv' ..)]; rfl

end Sys2Proof.Machine
end

