-- ==== Sys2Proof/Laws/Decode.lean ====
section
/-! SUPPORT. The decoder row by row (30_encoding.md R82). -/

namespace Sys2Proof

/-- A word matches an exact row when it is that word. -/
theorem rowMatches_exact (v p : Word) : rowMatches v p 0xFFFFFFFF#32 = decide (v = p) := by
  have h : v &&& 0xFFFFFFFF#32 = v := by
    rw [show (0xFFFFFFFF#32) = BitVec.allOnes 32 from rfl, BitVec.and_allOnes]
  simp [rowMatches, h, beq_eq_decide]

/-- What the decoder answers: the QR row by its mask, the other six by the whole word, else illegal. -/
theorem decode_eq (v : Word) :
    decode v =
      if rowMatches v 0x00000001#32 0xFF0000FF#32 then .ok (.qr (fieldQA v) (fieldQB v) (fieldQC v) (fieldQD v))
      else if v = 2 then .ok .block
      else if v = 3 then .ok .stream
      else if v = 4 then .ok .poly
      else if v = 5 then .ok .keygen
      else if v = 6 then .ok .aeadEnc
      else if v = 7 then .ok .aeadDec
      else .error (illegalReason v) := by
  simp only [decode, rowMatches_exact, decide_eq_true_eq]
  rfl

end Sys2Proof
end

