-- ==== Sys2Proof/Laws/HostProgram.lean ====
section
/-! SUPPORT. What each host instruction of 30_encoding.md R86 does, one lemma each, and what one turn of a host program does. -/

namespace Sys2Proof.Machine

theorem offset_toNat {o : Nat} (h : o < 2 ^ 17) : (BitVec.ofNat 17 o).toNat = o := by
  rw [BitVec.toNat_ofNat, Nat.mod_eq_of_lt h]

/-- `WR reg, v`: dropped while BUSY unless the register is CTRL or STATUS, else the register's write. -/
theorem hostAccess_wr (r : Reg) (v : Word) (s : State) :
    hostAccess (wr r v) s =
      respond .okay none (if s.busy && !writableWhileBusy (.reg r) then dropWrite s else writeReg r v s) := by
  have h1 := offset_lt r
  have h2 := offset_mod_four r
  have h3 : (BitVec.ofNat 17 r.offset).toNat = r.offset := offset_toNat (by omega)
  simp only [wr, wrAt, hostAccess, hostWrite, busError, Access.wf, Access.offset, h3, h2, locate_reg]
  cases hb : s.busy && !writableWhileBusy (.reg r) <;> simp [writeLocation]

/-- `RD reg`: a free draw where R47 says so, else the register's value. -/
theorem hostAccess_rd (r : Reg) (s : State) :
    hostAccess (rd r) s =
      if s.busy && drawnWhileBusy (.reg r) then
        respond .okay (some (Config.busyRead s.draws)) (countDraw s)
      else respond .okay (some (readReg r s)) s := by
  have h1 := offset_lt r
  have h2 := offset_mod_four r
  have h3 : (BitVec.ofNat 17 r.offset).toNat = r.offset := offset_toNat (by omega)
  simp only [rd, rdAt, hostAccess, hostRead, busError, Access.wf, Access.offset, h3, h2, locate_reg]
  cases hb : s.busy && drawnWhileBusy (.reg r) <;> simp [readLocation]

/-- A buffer offset inside a legal buffer fits the host window. -/
theorem bufOffset_lt {s : State} (hw : s.cfg.wf = true) {o : Nat} (h : o < s.cfg.bufBytes) : 0x10000 + o < 2 ^ 17 := by
  simp only [Config.wf, Bool.and_eq_true, decide_eq_true_eq] at hw
  omega

/-- A word-aligned offset inside a legal buffer has its whole word inside. -/
theorem word_within {s : State} (hw : s.cfg.wf = true) {o : Nat} (h4 : o % 4 = 0) (h : o < s.cfg.bufBytes) :
    o + 4 ≤ s.cfg.bufBytes := by
  simp only [Config.wf, Bool.and_eq_true, decide_eq_true_eq, beq_iff_eq] at hw
  omega

/-- `WRB o, v`: dropped while BUSY, else the word's four bytes are written. -/
theorem hostAccess_wrb {s : State} (hw : s.cfg.wf = true) {o : Nat} (h4 : o % 4 = 0) (h : o < s.cfg.bufBytes) (v : Word) :
    hostAccess (wrb o v) s = respond .okay none (if s.busy then dropWrite s else writeBufWord o v s) := by
  have h3 : (BitVec.ofNat 17 (0x10000 + o)).toNat = 0x10000 + o := offset_toNat (bufOffset_lt hw h)
  have h5 : (0x10000 + o) % 4 = 0 := by omega
  simp only [wrb, wrAt, hostAccess, hostWrite, busError, Access.wf, Access.offset, h3, h5, locate_buffer _ _ h]
  cases hb : s.busy <;> simp [writeLocation, writableWhileBusy]

/-- `RDB o`: a free draw while BUSY, else the little-endian word. -/
theorem hostAccess_rdb {s : State} (hw : s.cfg.wf = true) {o : Nat} (h4 : o % 4 = 0) (h : o < s.cfg.bufBytes) :
    hostAccess (rdb o) s =
      if s.busy then respond .okay (some (Config.busyRead s.draws)) (countDraw s)
      else respond .okay (some (readBufWord o s)) s := by
  have h3 : (BitVec.ofNat 17 (0x10000 + o)).toNat = 0x10000 + o := offset_toNat (bufOffset_lt hw h)
  have h5 : (0x10000 + o) % 4 = 0 := by omega
  simp only [rdb, rdAt, hostAccess, hostRead, busError, Access.wf, Access.offset, h3, h5, locate_buffer _ _ h]
  cases hb : s.busy <;> simp [readLocation, drawnWhileBusy]

/-- A word written to the buffer is read back. -/
theorem readBufWord_writeBufWord (o : Nat) (v : Word) (s : State) : readBufWord o (writeBufWord o v s) = v := by
  have h := readBytes_writeBytes s.buf o (wordBytes v)
  rw [wordBytes_length] at h
  rw [readBufWord, writeBufWord, memWrite_buf, h, ofNat_leInt_wordBytes]

/-- `RD STATUS` returns the STATUS word, busy or not (R47). -/
theorem hostAccess_rd_status (s : State) : hostAccess (rd .status) s = respond .okay (some (statusWord s)) s := by
  rw [hostAccess_rd]
  simp [drawnWhileBusy, readReg]

/-- Bit 0 of the STATUS word is BUSY, so a poll ends `WAIT` exactly when the block is not busy (R27, R87). -/
theorem waitOver_statusWord (s : State) : waitOver (statusWord s) = !s.busy := by
  simp only [waitOver, statusWord, BitVec.getLsbD_append]
  simp

/-! ### Programs -/

@[simp] theorem valueRead_some (r : Response) : valueRead (some r) = r.data := rfl
/-- A write reads nothing, whatever becomes of it. -/
@[simp] theorem valueRead_hostWrite (a : Access) (v : Word) (s : State) : valueRead (hostWrite a v s).resp = none := by
  unfold hostWrite
  by_cases h : busError a s = true
  · simp [h]
  · by_cases h' : (s.busy && !writableWhileBusy (locate s.cfg.bufBytes a.offset)) = true <;> simp only [h, h'] <;> rfl

@[simp] theorem Running.advance_block (i : HostInstr) (p : List HostInstr) (r : Running) : (r.advance i p).block = r.block := rfl
@[simp] theorem Running.advance_recorded (i : HostInstr) (p : List HostInstr) (r : Running) :
    (r.advance i p).recorded = r.recorded ++ (valueRead r.block.resp).toList := rfl

/-- Outside reset, the host's turn performs the transaction of the next instruction and records what it read. -/
theorem Running.turn_host {s : State} (hr : s.inReset = false) (i : HostInstr) (p : List HostInstr) (vs : List Word) :
    Running.turn .host { left := i :: p, recorded := vs, block := s } =
      .next (Running.advance i p { left := i :: p, recorded := vs, block := hostAccess i.transaction s }) := by
  simp [Running.turn, Running.input, takeInput, hr]

/-- All a turn does to the record: it appends the value a transaction of the host read, if it read one. -/
theorem Running.turn_recorded {t : Turn} {r u : Running} (h : r.turn t = .next u) :
    u.recorded = r.recorded ∨ (t = .host ∧ u.recorded = r.recorded ++ (valueRead u.block.resp).toList) := by
  have hin : ∀ {e : Input} {v : Running}, r.input e = .next v → v.recorded = r.recorded := by
    intro e v hv
    unfold Running.input at hv
    split at hv <;> cases hv
    rfl
  cases t with
  | engine => exact .inl (hin h)
  | host =>
    simp only [Running.turn] at h
    split at h
    · cases h; exact .inl rfl
    · split at h <;> cases h
      rename_i hv
      exact .inr ⟨rfl, by rw [Running.advance_recorded, Running.advance_block, hin hv]⟩

/-- A turn of the schedule that answers next. -/
theorem runProgram_cons {t : Turn} {r u : Running} (h : r.turn t = .next u) (ts : List Turn) :
    runProgram (t :: ts) r = runProgram ts u := by
  rw [runProgram, h]

/-- What a program has recorded is never lost (R86). -/
theorem recorded_prefix (ts : List Turn) {r u : Running} (h : runProgram ts r = .next u) : r.recorded <+: u.recorded := by
  induction ts generalizing r with
  | nil => cases h; exact List.prefix_rfl
  | cons t ts ih =>
    rw [runProgram] at h
    split at h <;> try cases h
    rename_i v hv
    refine List.IsPrefix.trans ?_ (ih h)
    rcases Running.turn_recorded hv with e | ⟨_, e⟩ <;> rw [e]
    exact List.prefix_append _ _

/-- A transaction at the host's turn is performed and over, and the value it read, if any, is recorded. -/
theorem runProgram_access {s : State} (hr : s.inReset = false) (ts : List Turn) (p : List HostInstr) (vs : List Word) (a : Access) :
    runProgram (.host :: ts) { left := .access a :: p, recorded := vs, block := s } =
      runProgram ts { left := p, recorded := vs ++ (valueRead (hostAccess a s).resp).toList, block := hostAccess a s } :=
  runProgram_cons (Running.turn_host hr _ _ _) ts

/-- `WAIT` at the host's turn: one poll, recorded, and it is over exactly when BUSY = 0. -/
theorem runProgram_wait {s : State} (hr : s.inReset = false) (ts : List Turn) (p : List HostInstr) (vs : List Word) :
    runProgram (.host :: ts) { left := .wait :: p, recorded := vs, block := s } =
      runProgram ts { left := if s.busy then .wait :: p else p, recorded := vs ++ [statusWord s],
                      block := respond .okay (some (statusWord s)) s } := by
  rw [runProgram_cons (Running.turn_host hr _ _ _)]
  simp only [HostInstr.transaction, hostAccess_rd_status, Running.advance, HostInstr.over, respond_resp, valueRead_some,
    waitOver_statusWord, Option.toList]
  cases s.busy <;> rfl

/-- While BUSY, the polls of `WAIT` leave it standing, record STATUS each time, and change nothing of the block but the response. -/
theorem runProgram_polls {s : State} (hr : s.inReset = false) (hb : s.busy = true) (k : Nat) (ts : List Turn)
    (p : List HostInstr) (vs : List Word) :
    ∃ q, runProgram (List.replicate k .host ++ ts) { left := .wait :: p, recorded := vs, block := s } =
      runProgram ts { left := .wait :: p, recorded := vs ++ List.replicate k (statusWord s), block := { s with resp := q } } := by
  induction k generalizing s vs with
  | zero => exact ⟨s.resp, by simp⟩
  | succ k ih =>
    obtain ⟨q, h⟩ := ih (s := respond .okay (some (statusWord s)) s) hr hb (vs ++ [statusWord s])
    refine ⟨q, ?_⟩
    rw [List.replicate_succ, List.cons_append, runProgram_wait hr, hb, if_pos rfl, h, List.append_assoc, List.replicate_succ]
    rfl

end Sys2Proof.Machine
end

