-- ==== Sys2Proof/Laws/PerInstr.lean ====
section
/-! SUPPORT. Statements about every command as syntax. Family TableRow: the word of a command lies in the command's row of the
opcode map (30_encoding.md R82). -/

namespace Sys2Proof.Laws.TableRow

/-- The match value of a command's row. -/
def pattern : Instr → Word
  | .qr _ _ _ _ => 0x00000001#32
  | .block => 0x00000002#32
  | .stream => 0x00000003#32
  | .poly => 0x00000004#32
  | .keygen => 0x00000005#32
  | .aeadEnc => 0x00000006#32
  | .aeadDec => 0x00000007#32

/-- The mask of a command's row. -/
def mask : Instr → Word
  | .qr _ _ _ _ => 0xFF0000FF#32
  | .block => 0xFFFFFFFF#32
  | .stream => 0xFFFFFFFF#32
  | .poly => 0xFFFFFFFF#32
  | .keygen => 0xFFFFFFFF#32
  | .aeadEnc => 0xFFFFFFFF#32
  | .aeadDec => 0xFFFFFFFF#32

/-- The command's word matches its row. -/
def Statement (i : Instr) : Prop := encode i &&& mask i = pattern i

theorem qr (a b c d : BitVec 4) : Statement (.qr a b c d) := by
  unfold Statement mask pattern encode
  ext k hk
  simp only [BitVec.getElem_and, BitVec.getElem_or, BitVec.getElem_shiftLeft, BitVec.getElem_setWidth]
  interval_cases k <;> simp

theorem block : Statement .block := rfl
theorem stream : Statement .stream := rfl
theorem poly : Statement .poly := rfl
theorem keygen : Statement .keygen := rfl
theorem aeadEnc : Statement .aeadEnc := rfl
theorem aeadDec : Statement .aeadDec := rfl

end Sys2Proof.Laws.TableRow
end

