-- ==== Sys2Proof/Laws/Poly1305.lean ====
section
/-! SUPPORT. The Poly1305 functions: the value of a chunk, the accumulator chunk by chunk, the sizes of r and s (41_poly1305.md R120 to
R124). -/

namespace Sys2Proof.Machine

/-- `le_int(c ‖ 0x01) = le_int(c) + 2^(8L)` (R122). -/
theorem chunkValue_eq (c : List Byte) : chunkValue c = leInt c + 2 ^ (8 * c.length) := by
  rw [chunkValue, leInt_append]
  simp [leInt]

theorem polyR_lt (k : List Byte) : polyR k < 2 ^ 124 := by
  have h1 : polyR k ≤ polyClamp := Nat.and_le_right
  have h2 : polyClamp < 2 ^ 124 := by decide
  omega

theorem polyS_lt (k : List Byte) : polyS k < 2 ^ 128 := by
  refine lt_of_lt_of_le (leInt_lt (slice k 16 32)) (Nat.pow_le_pow_right (by omega) ?_)
  rw [slice_length]
  omega

theorem polyAccumulate_lt (r a : Nat) (c : List Byte) : polyAccumulate r a c < polyPrime := Nat.mod_lt _ (by decide)

/-- The chunks of full chunks followed by one more are theirs and that one. -/
theorem polyChunks_append {m c : List Byte} (hm : m.length % 16 = 0) (h1 : 1 ≤ c.length) (h2 : c.length ≤ 16) :
    polyChunks (m ++ c) = polyChunks m ++ [c] := by
  have hn : ((m ++ c).length + 15) / 16 = (m.length + 15) / 16 + 1 := by rw [List.length_append]; omega
  have hd : 16 * ((m.length + 15) / 16) = m.length := by omega
  rw [polyChunks, hn, List.range_succ, List.map_append, polyChunks]
  congr 1
  · apply List.map_congr_left
    intro i hi
    have hi : i < (m.length + 15) / 16 := by simpa using hi
    simp only [slice]
    rw [List.drop_append_of_le_length (by omega), List.take_append_of_le_length (by rw [List.length_drop]; omega)]
  · simp only [List.map_cons, List.map_nil, slice, hd, List.drop_left]
    rw [List.take_of_length_le (by omega)]

/-- One more chunk: `a <- ((a + n) * r) mod P` (R123). -/
theorem polyAccumulator_append {m c : List Byte} (k : List Byte) (hm : m.length % 16 = 0) (h1 : 1 ≤ c.length)
    (h2 : c.length ≤ 16) : polyAccumulator (m ++ c) k = polyAccumulate (polyR k) (polyAccumulator m k) c := by
  rw [polyAccumulator, polyChunks_append hm h1 h2, List.foldl_append, ← polyAccumulator]
  rfl

end Sys2Proof.Machine
end

