-- ==== Sys2Proof/Tests/Slice0.lean ====
section
/-! SUPPORT. The model's own tests: words and values written out from the spec (30_encoding.md, 95_test_vectors.md), the ill-formed
terms each check refuses, and for every obligation with hypotheses a state and operands that meet them. -/

namespace Sys2Proof.Tests

set_option Elab.async false

open Sys2Proof Sys2Proof.Machine Sys2Proof.Claims

/-! ### Helpers -/

/-- The outcome is a next state of which `p` holds. -/
def nextIs (o : Host.Outcome State Fault Refusal) (p : State → Bool) : Bool :=
  match o with
  | .next t => p t
  | .fault _ => false
  | .refused _ => false

/-- `s` with the word `v` issued and accepted, the engine next. -/
def issued (v : Word) (s : State) : State := withIssuedWord v s

/-- `s` with a byte string in the buffer at `o`. -/
def withBytes (o : Nat) (m : List Byte) (s : State) : State := memWrite o m s

/-- What the `n` bytes at `o` read as. -/
def bytesAt (o n : Nat) (s : State) : List Byte := Memory.readBytes s.buf o n

/-! ### Decoding: the word of every command, bit by bit from R80 to R82 -/

theorem test_decode_qr : decode 0b00000000_1100_1000_0100_0000_0000_0001#32 = .ok (.qr 0 4 8 12) := by decide
theorem test_decode_qr_15_14_13_12 : decode 0b00000000_1100_1101_1110_1111_0000_0001#32 = .ok (.qr 15 14 13 12) := by decide
theorem test_decode_block : decode 0b00000000_00000000_00000000_0000_0010#32 = .ok .block := by decide
theorem test_decode_stream : decode 0b00000000_00000000_00000000_0000_0011#32 = .ok .stream := by decide
theorem test_decode_poly : decode 0b00000000_00000000_00000000_0000_0100#32 = .ok .poly := by decide
theorem test_decode_keygen : decode 0b00000000_00000000_00000000_0000_0101#32 = .ok .keygen := by decide
theorem test_decode_aeadEnc : decode 0b00000000_00000000_00000000_0000_0110#32 = .ok .aeadEnc := by decide
theorem test_decode_aeadDec : decode 0b00000000_00000000_00000000_0000_0111#32 = .ok .aeadDec := by decide

/-! ### Well-formedness: an ill-formed term for each check (R83, R9, R67, R68) -/

theorem test_word_opZero : wellFormedWord 0x00000000#32 = false ∧ decode 0x00000000#32 = .error .opZero := by decide
theorem test_word_opReserved : wellFormedWord 0x00000008#32 = false ∧ decode 0x00000008#32 = .error .opReserved := by decide
theorem test_word_reservedLow : wellFormedWord 0x00C84011#32 = false ∧ decode 0x00C84011#32 = .error .reservedLow := by decide
theorem test_word_reservedHigh : wellFormedWord 0x10C84001#32 = false ∧ decode 0x10C84001#32 = .error .reservedHigh := by decide
theorem test_word_operandBits : wellFormedWord 0x00000102#32 = false ∧ decode 0x00000102#32 = .error .operandBits := by decide
theorem test_config_not_multiple : Config.wf { bufBytes := 100 } = false := by decide
theorem test_config_too_small : Config.wf { bufBytes := 0 } = false := by decide
theorem test_config_too_large : Config.wf { bufBytes := 65600 } = false := by decide
theorem test_config_bounds : Config.wf { bufBytes := 64 } = true ∧ Config.wf { bufBytes := 65536 } = true := by decide
theorem test_access_width : Access.wf (.read 0x10#17 .half) = false := by decide
theorem test_access_misaligned : Access.wf (.read 0x2#17 .word) = false := by decide
theorem test_access_enables : Access.wf (.write 0x10#17 .word 0x3#4 2) = false := by decide

/-! ### Commands: vectors of 95_test_vectors.md, one step each -/

/-- Vector R2. -/
theorem test_qr_on_state : nextIs (step (issued 0x00D87201#32 { State.reset with state := #v[0x879531e0#32, 0xc5ecf37d#32, 0x516461b1#32, 0xc9a62f8a#32, 0x44c20ef3#32, 0x3390af7f#32, 0xd9fc690b#32, 0x2a5f714c#32,
    0x53372767#32, 0xb00a5631#32, 0x974c541a#32, 0x359e9963#32, 0x5c971061#32, 0x3d631689#32, 0x2098d9d6#32, 0x91dbd320#32] }))
    (fun t => t.state == #v[0x879531e0#32, 0xc5ecf37d#32, 0xbdb886dc#32, 0xc9a62f8a#32, 0x44c20ef3#32, 0x3390af7f#32, 0xd9fc690b#32, 0xcfacafd2#32,
    0xe46bea80#32, 0xb00a5631#32, 0x974c541a#32, 0x359e9963#32, 0x5c971061#32, 0xccc07c79#32, 0x2098d9d6#32, 0x91dbd320#32]) = true := by
  decide +kernel

/-- Vector Q4: the fields are read in the order a, b, c, d. -/
theorem test_qr_index_order : nextIs (step (issued 0x00230101#32 { State.reset with state := #v[0x00000000#32, 0x00000001#32, 0x00000002#32, 0x00000003#32, 0x00000004#32, 0x00000005#32, 0x00000006#32, 0x00000007#32,
    0x00000008#32, 0x00000009#32, 0x0000000a#32, 0x0000000b#32, 0x0000000c#32, 0x0000000d#32, 0x0000000e#32, 0x0000000f#32] }))
    (fun t => t.state == #v[0x99989999#32, 0x30003001#32, 0x03300130#32, 0x03330133#32, 0x00000004#32, 0x00000005#32, 0x00000006#32, 0x00000007#32,
    0x00000008#32, 0x00000009#32, 0x0000000a#32, 0x0000000b#32, 0x0000000c#32, 0x0000000d#32, 0x0000000e#32, 0x0000000f#32]) = true := by
  decide +kernel

/-- Vector R3. -/
theorem test_block : nextIs (step (issued 2 { State.reset with
      key := #v[0x03020100#32, 0x07060504#32, 0x0b0a0908#32, 0x0f0e0d0c#32, 0x13121110#32, 0x17161514#32, 0x1b1a1918#32, 0x1f1e1d1c#32]
      nonce := #v[0x09000000#32, 0x4a000000#32, 0], counter := 1 }))
    (fun t => t.state == #v[0xe4e7f110#32, 0x15593bd1#32, 0x1fdd0f50#32, 0xc47120a3#32, 0xc7f4d1c7#32, 0x0368c033#32, 0x9aaa2204#32, 0x4e6cd4c3#32,
    0x466482d2#32, 0x09aa9f07#32, 0x05d7c214#32, 0xa2028bd9#32, 0xd19c12b5#32, 0xb94e16de#32, 0xe883d0cb#32, 0x4e3c50a2#32]) = true := by
  decide +kernel

/-- Vector B3: the top counter is legal and COUNTER keeps it. -/
theorem test_block_top_counter : nextIs (step (issued 2 { State.reset with counter := 0xFFFFFFFF#32 }))
    (fun t => t.state == #v[0x09cde4ac#32, 0x91d194e2#32, 0x05d24a2d#32, 0xd9956fd0#32, 0xcfbff2c2#32, 0x53873e45#32, 0x5b7628f1#32, 0x4d5f2162#32,
    0x2f4fc792#32, 0x646a6c62#32, 0x84120b0c#32, 0x81ec39d8#32, 0x816269f1#32, 0x683efcda#32, 0x70939345#32, 0x1d8bb523#32] && t.counter == 0xFFFFFFFF#32 && statusWord t == 2#32) = true := by
  decide +kernel

/-- Vector T2: 65 bytes take two blocks, the second at the next counter. -/
theorem test_stream_two_blocks : nextIs (step (issued 3 (withBytes 0 (zeros 65) { State.reset with dst := 0x100, len := 65 })))
    (fun t => bytesAt 0x13C 5 t == [0xb2, 0xee, 0x65, 0x86, 0x9f] && t.counter == 0) = true := by
  decide +kernel

/-- Vector T4: COUNTER_OVERFLOW at issue. -/
theorem test_stream_overflow : statusWord (issue 3 { State.reset with counter := 0xFFFFFFFF#32, dst := 0x80, len := 65 }) =
    0x00000406#32 := by decide

/-- Vector R5. -/
theorem test_poly : nextIs (step (issued 4 (withBytes 0 ([0x43, 0x72, 0x79, 0x70, 0x74, 0x6f, 0x67, 0x72, 0x61, 0x70, 0x68, 0x69, 0x63, 0x20, 0x46, 0x6f, 0x72]
      ++ [0x75, 0x6d, 0x20, 0x52, 0x65, 0x73, 0x65, 0x61, 0x72, 0x63, 0x68, 0x20, 0x47, 0x72, 0x6f, 0x75, 0x70]) { State.reset with
      pkey := #v[0x78bed685#32, 0x336d5557#32, 0xfe52447f#32, 0xa806d542#32, 0x8a800301#32, 0xfdb20dfb#32, 0xaff6bf4a#32, 0x1bf54941#32], len := 34 })))
    (fun t => t.tag == #v[0xc11d06a8#32, 0xc6365130#32, 0xaf8b2bc2#32, 0xa927010c#32]) = true := by
  decide +kernel

/-- Vector M8: a full chunk, then one of a single byte. -/
theorem test_poly_short_chunk : nextIs (step (issued 4 (withBytes 0 (zeros 17) { State.reset with
      pkey := #v[1, 0, 0, 0, 0, 0, 0, 0], len := 17 })))
    (fun t => t.tag == #v[0x00000100#32, 0, 0, 0]) = true := by
  decide +kernel

/-- Vector R6, with a COUNTER that KEYGEN must not read (vector K2). -/
theorem test_keygen : nextIs (step (issued 5 { State.reset with
      key := #v[0x83828180#32, 0x87868584#32, 0x8b8a8988#32, 0x8f8e8d8c#32, 0x93929190#32, 0x97969594#32, 0x9b9a9998#32, 0x9f9e9d9c#32]
      nonce := #v[0x00000000#32, 0x03020100#32, 0x07060504#32], counter := 5 }))
    (fun t => t.pkey == #v[0x8ba0d58a#32, 0xcc815f90#32, 0x27405081#32, 0x7194b24a#32, 0x37b633a8#32, 0xa50dfde3#32, 0xe2b8db08#32, 0x46a6d1fd#32] && t.state == State.reset.state) = true := by
  decide +kernel

/-- Vector R7 (S8), its first four bytes: constant and iv from NONCE, the keystream from counter 1, PKEY untouched. -/
theorem test_aeadEnc : nextIs (step (issued 6 (withBytes 0x10 [0x4c, 0x61, 0x64, 0x69] { State.reset with
      key := #v[0x83828180#32, 0x87868584#32, 0x8b8a8988#32, 0x8f8e8d8c#32, 0x93929190#32, 0x97969594#32, 0x9b9a9998#32, 0x9f9e9d9c#32]
      nonce := #v[0x00000007#32, 0x43424140#32, 0x47464544#32]
      src := 0x10, len := 4, dst := 0x100 })))
    (fun t => bytesAt 0x100 4 t == [0xd3, 0x1a, 0x8d, 0x34] && t.pkey == State.reset.pkey) = true := by
  decide +kernel

/-- Vector R7 (S8): the tag over its associated data and its whole ciphertext, under its one-time key. -/
theorem test_aeadEnc_tag : poly1305 (macInput [0x50, 0x51, 0x52, 0x53, 0xc0, 0xc1, 0xc2, 0xc3, 0xc4, 0xc5, 0xc6, 0xc7]
      (
        [0xd3, 0x1a, 0x8d, 0x34, 0x64, 0x8e, 0x60, 0xdb, 0x7b, 0x86, 0xaf, 0xbc, 0x53, 0xef, 0x7e, 0xc2, 0xa4, 0xad, 0xed] ++
        [0x51, 0x29, 0x6e, 0x08, 0xfe, 0xa9, 0xe2, 0xb5, 0xa7, 0x36, 0xee, 0x62, 0xd6, 0x3d, 0xbe, 0xa4, 0x5e, 0x8c, 0xa9] ++
        [0x67, 0x12, 0x82, 0xfa, 0xfb, 0x69, 0xda, 0x92, 0x72, 0x8b, 0x1a, 0x71, 0xde, 0x0a, 0x9e, 0x06, 0x0b, 0x29, 0x05] ++
        [0xd6, 0xa5, 0xb6, 0x7e, 0xcd, 0x3b, 0x36, 0x92, 0xdd, 0xbd, 0x7f, 0x2d, 0x77, 0x8b, 0x8c, 0x98, 0x03, 0xae, 0xe3] ++
        [0x28, 0x09, 0x1b, 0x58, 0xfa, 0xb3, 0x24, 0xe4, 0xfa, 0xd6, 0x75, 0x94, 0x55, 0x85, 0x80, 0x8b, 0x48, 0x31, 0xd7] ++
        [0xbc, 0x3f, 0xf4, 0xde, 0xf0, 0x8e, 0x4b, 0x7a, 0x9d, 0xe5, 0x76, 0xd2, 0x65, 0x86, 0xce, 0xc6, 0x4b, 0x61, 0x16]))
      ([0x7b, 0xac, 0x2b, 0x25, 0x2d, 0xb4, 0x47, 0xaf, 0x09, 0xb6, 0x7a, 0x55, 0xa4, 0xe9, 0x55, 0x84] ++
        [0x0a, 0xe1, 0xd6, 0x73, 0x10, 0x75, 0xd9, 0xeb, 0x2a, 0x93, 0x75, 0x78, 0x3e, 0xd5, 0x53, 0xff]) =
    [0x1a, 0xe1, 0x0b, 0x59, 0x4f, 0x09, 0xe2, 0x6a, 0x7e, 0x90, 0x2e, 0xcb, 0xd0, 0x60, 0x06, 0x91] := by
  decide +kernel

/-- Vector A5, decrypted in place. -/
theorem test_aeadDec : nextIs (step (issued 7 (withBytes 0x20 [0x9f, 0x07, 0xe7, 0xbe, 0x55, 0x51, 0x38, 0x7a, 0x98, 0xba, 0x97, 0x7c, 0x73, 0x2d, 0x08, 0x0d, 0xcb]
      (withBytes 0 [0x01] { State.reset with aadLen := 1, src := 0x20, len := 17, dst := 0x20 }))))
    (fun t => bytesAt 0x20 17 t == zeros 17 && t.tag == #v[0x7bab65ed#32, 0x63ef3189#32, 0xc341b22f#32, 0x4d11745c#32] &&
      statusWord t == 2#32) = true := by
  decide +kernel

/-- AAD + AADLEN beyond the buffer (vector A8). -/
theorem test_aeadDec_range : statusWord (issue 7 { State.reset with aad := 0xFF0, aadLen := 17 }) = 0x00000706#32 := by decide

/-! ### The host bus: vectors of 95_test_vectors.md section 3.7, one transaction each -/

theorem test_read_bufsize : (hostAccess (.read 0x4#17 .word) State.reset).resp =
    some { status := .okay, data := some 0x00001000#32 } := by decide
theorem test_ctrl_keeps_bit_0 : readReg .ctrl (hostAccess (.write 0x8#17 .word 0xF#4 0xFFFFFFFF#32) State.reset) = 1#32 := by decide
theorem test_hole_after_nonce : (hostAccess (.read 0x6C#17 .word) State.reset).resp =
    some { status := .error, data := some 0 } := by decide
theorem test_nonce0_is_the_constant :
    constantBytes (hostAccess (.write 0x60#17 .word 0xF#4 0x04030201#32) State.reset) = [1, 2, 3, 4] := by decide
theorem test_key3_offset : readReg (.key 3) (hostAccess (.write 0x4C#17 .word 0xF#4 7) State.reset) = 7#32 := by decide
theorem test_above_buffer : (hostAccess (.read 0x11000#17 .word) State.reset).resp =
    some { status := .error, data := some 0 } := by decide
theorem test_half_write_of_cmd : hostAccess (.write 0x10#17 .half 0x3#4 2) State.reset =
    respond .error none State.reset := by decide
theorem test_illegal_report : readReg .status (hostAccess (.write 0x10#17 .word 0xF#4 0x10000001#32) State.reset) =
    0x00000506#32 := by decide
theorem test_clear_err : readReg .status (hostAccess (.write 0xC#17 .word 0xF#4 4)
    { State.reset with error := some .illegalCmd }) = 0 := by decide
theorem test_dropped_write : statusWord (hostAccess (.write 0x14#17 .word 0xF#4 7)
    { State.reset with cmd := 0x00321001#32, pending := some (.qr 0 1 2 3) }) = 0x00000009#32 := by decide

/-! ### The row's word and the next step -/

theorem test_fetchWord_runs : nextIs (step (State.reset.withFetchWord 32 2)) (fun t => t.done && !t.busy && t.cmd == 2) = true := by
  decide
theorem test_fetchWord_qr_zero_operands :
    nextIs (step (State.reset.withFetchWord 32 1)) (fun t => statusWord t == 0x00000606#32) = true := by decide

/-! ### Witnesses: for each obligation with hypotheses, a state and operands that meet them, clause by clause -/

/-- BLOCK pending. -/
def busyBlock : State := { State.reset with cmd := 2, pending := some .block }

/-- STREAM pending over the whole buffer, in place. -/
def busyStream : State := { State.reset with cmd := 3, pending := some .stream, len := 4096 }

/-- STREAM at the top counter: one block is the most it can take. -/
def topStream : State := { State.reset with counter := 0xFFFFFFFF#32, src := 0xFC0, dst := 0x40, len := 64 }

/-- An AEAD message in place whose associated data ends where the buffer ends and begins where the message ends. -/
def fullAead : State := { State.reset with aad := 0xFF0, aadLen := 16, len := 0xFF0 }

theorem busyBlock_inv : busyBlock.Inv where
  cfgWf := by decide
  bufWf := by decide
  bufWithin := by decide
  pendingIsCmd := by intro i h; injection h with h; subst h; decide
  pendingValid := by intro i h; injection h with h; subst h; decide
  busyReport := fun _ => ⟨rfl, rfl⟩
  errorRaised := nofun
  heldInReset := nofun

theorem test_wit_EncodeOfDecode : decode 0x00C84001#32 = .ok (.qr 0 4 8 12) ∧ decode 7 = .ok .aeadDec := by decide

theorem test_wit_IllegalWordsRefused :
    (¬ ∃ i, decode 0x00000010#32 = .ok i) ∧ ¬ Distinct4 (15 : BitVec 4) 0 7 15 := by
  refine ⟨?_, by simp [Distinct4]⟩
  rintro ⟨i, h⟩
  rw [show decode 0x00000010#32 = .error .opZero from by decide] at h
  cases h

theorem test_wit_HostWindowMap :
    locate 4096 0x0FC = .reg (.state 15) ∧ 0xFFFF < 0x10000 ∧ 4095 < 4096 ∧ 0x10000 + 4096 ≤ 0x11000 := by decide

theorem test_wit_IdentificationReads : State.reset.cfg.wf = true ∧ busyBlock.cfg.wf = true := by decide

theorem test_wit_RegisterReadback :
    State.reset.busy = false ∧ storesPlainly (.state 15) = true ∧ storesPlainly .counter = true ∧ Reg.state 14 ≠ .state 15 := by
  decide

theorem test_wit_BufferWordReadback :
    State.reset.cfg.wf = true ∧ State.reset.busy = false ∧ 4092 % 4 = 0 ∧ 4092 < State.reset.cfg.bufBytes := by decide

theorem test_wit_ReadOnlyWritesIgnored :
    State.reset.busy = false ∧ readOnly (.tag 3) = true ∧ readOnly .id = true ∧
      (0xFFFFFFFE#32).getLsbD 0 = (0#32).getLsbD 0 ∧
      ∀ k, 1 ≤ k → k ≤ 3 → (0xFFFFFFF1#32).getLsbD k = (0#32).getLsbD k := by
  refine ⟨by decide, by decide, by decide, by decide, fun k h1 h2 => ?_⟩
  obtain rfl | rfl | rfl : k = 1 ∨ k = 2 ∨ k = 3 := by omega
  all_goals decide

/-- Vectors T4, 3.7, Q6, T8 and T7: a report of each code. -/
theorem test_wit_StatusWordFields :
    State.reset.error = none ∧
    (issue 3 { State.reset with counter := 0xFFFFFFFF#32, dst := 0x80, len := 65 }).error = some .counterOverflow ∧
    statusWord (issue 0x10000001#32 State.reset) = 0x00000506#32 ∧
    statusWord (issue 0x00111001#32 State.reset) = 0x00000606#32 ∧
    statusWord (issue 3 { State.reset with src := 0xFC0, len := 0x41 }) = 0x00000706#32 ∧
    statusWord (issue 3 { State.reset with counter := 5, dst := 0x10, len := 0x20 }) = 0x00000806#32 := by decide

theorem test_wit_CtrlRegister :
    (busyBlock.inReset = false ∧ ({ busyBlock with irqEn := true } : State).irqEn = true) ∧ State.reset.irqEn = false := by decide

theorem test_wit_CommandIssue :
    State.reset.busy = false ∧ validateWord 0x00111001#32 State.reset = some .indexAlias ∧
      validateWord 0x00321001#32 State.reset = none := by decide

theorem test_wit_BusyWritesDropped :
    busyBlock.busy = true ∧ busyBlock.cfg.wf = true ∧ (Reg.tag 0 ≠ .ctrl ∧ Reg.tag 0 ≠ .status) ∧
      (4092 % 4 = 0 ∧ 4092 < busyBlock.cfg.bufBytes) ∧ busError (.write 0x2C#17 .word 0xF#4 5) busyBlock = true := by decide

theorem test_wit_BusyReadsDrawn :
    busyBlock.busy = true ∧ unspecifiedWhileBusy (.pkey 7) = true ∧ unspecifiedWhileBusy (.key 7) = false ∧
      busyBlock.cfg.wf = true ∧ 0 % 4 = 0 ∧ 0 < busyBlock.cfg.bufBytes := by decide

theorem test_wit_ReadsHaveNoSideEffect : State.reset.busy = false := by decide

theorem test_wit_BusErrorHasNoEffect :
    Width.half ≠ .word ∧ (0x3#4 : BitVec 4) ≠ 0xF#4 ∧ (0x2#17).toNat % 4 ≠ 0 ∧
      locate State.reset.cfg.bufBytes (0x1FFFC#17).toNat = .unmapped := by decide

theorem test_wit_LoadbPlacesString :
    State.reset.cfg.wf = true ∧ State.reset.busy = false ∧ 4092 % 4 = 0 ∧
      4092 + ([1, 2, 3] : List Byte).length ≤ State.reset.cfg.bufBytes ∧ 2 < ([1, 2, 3] : List Byte).length ∧
      (([1, 2, 3] : List Byte).length ≤ 3 ∧ 3 < 4 * ((([1, 2, 3] : List Byte).length + 3) / 4)) := by decide

theorem test_wit_QrCompletes : Distinct4 (1 : BitVec 4) 0 3 2 := by simp [Distinct4]

theorem test_wit_QuarterRoundSteps :
    (0 < 31 ∧ 31 < 32) ∧ Distinct4 (15 : Fin 16) 14 13 12 ∧ (11 : Fin 16) ≠ 15 ∧ (11 : Fin 16) ≠ 14 ∧ (11 : Fin 16) ≠ 13 ∧ (11 : Fin 16) ≠ 12 := by
  simp [Distinct4]

theorem test_wit_QrAliasReported : ¬ Distinct4 (0 : BitVec 4) 1 1 0 := by simp [Distinct4]

theorem topStream_accepted : StreamAccepted topStream := by
  simp only [StreamAccepted, SrcFits, DstFits, SrcDstOverlap, SpansOverlap]
  decide

theorem test_wit_BlockFunctionByRounds : 15 < 16 ∧ 3 < 4 := by decide

theorem test_wit_StreamCompletes : StreamAccepted topStream := topStream_accepted

theorem test_wit_StreamBytes :
    StreamAccepted topStream ∧ 63 < topStream.len.toNat ∧ topStream.dst.toNat + topStream.len.toNat ≤ 0x80 :=
  ⟨topStream_accepted, by decide, by decide⟩

theorem test_wit_StreamRefusals :
    (¬ (SrcFits { State.reset with src := 0x1001 } ∧ DstFits { State.reset with src := 0x1001 })) ∧
    (SrcFits { topStream with src := 0, dst := 63 } ∧ DstFits { topStream with src := 0, dst := 63 } ∧
      SrcDstOverlap { topStream with src := 0, dst := 63 }) ∧
    (SrcFits { topStream with src := 0, dst := 65, len := 65 } ∧ DstFits { topStream with src := 0, dst := 65, len := 65 } ∧
      ¬ SrcDstOverlap { topStream with src := 0, dst := 65, len := 65 } ∧
      ({ topStream with src := 0, dst := 65, len := 65 } : State).len.toNat >
        (2 ^ 32 - ({ topStream with src := 0, dst := 65, len := 65 } : State).counter.toNat) * 64) := by
  simp only [SrcFits, DstFits, SrcDstOverlap, SpansOverlap]
  decide

theorem test_wit_PolyCompletes :
    SrcFits { State.reset with src := 0x1000 } ∧ ¬ SrcFits { State.reset with src := 0xFFFFFFFF#32, len := 2 } := by
  simp only [SrcFits]
  decide

theorem test_wit_PolyDatapathBounds :
    (zeros 32).length = 32 ∧
    ((zeros 16).length % 16 = 0 ∧ 1 ≤ ([0xff] : List Byte).length ∧ ([0xff] : List Byte).length ≤ 16) ∧
    2 ^ 130 - 6 < 2 ^ 130 - 5 ∧ (List.replicate 16 (0xff : Byte)).length ≤ 16 := by decide

theorem test_wit_PolyCornerValues : polyR (zeros 16 ++ List.replicate 16 0xff) = 0 := by decide

theorem test_wit_PolyChunksCoverMessage : 0 < (polyChunks (zeros 17)).length ∧ 0 + 1 < (polyChunks (zeros 17)).length := by decide

theorem test_wit_PolyClampBytes : (zeros 32).length = 32 ∧ 15 < 16 := by decide

theorem fullAead_accepted : AeadAccepted fullAead := by
  simp only [AeadAccepted, SrcFits, DstFits, AadFits, SrcDstOverlap, AadDstOverlap, SpansOverlap]
  decide

theorem test_wit_AeadEncCompletes : AeadAccepted fullAead ∧ 0xFEF < fullAead.len.toNat := ⟨fullAead_accepted, by decide⟩

theorem test_wit_AeadDecCompletes :
    AeadAccepted State.reset ∧ AeadAccepted fullAead ∧ 0xFEF < fullAead.len.toNat := by
  refine ⟨?_, fullAead_accepted, by decide⟩
  simp only [AeadAccepted, SrcFits, DstFits, AadFits, SrcDstOverlap, AadDstOverlap, SpansOverlap]
  decide

theorem test_wit_AeadRefusals :
    (¬ (SrcFits { fullAead with aadLen := 17 } ∧ DstFits { fullAead with aadLen := 17 } ∧
      AadFits { fullAead with aadLen := 17 })) ∧
    (SrcFits { fullAead with aad := 0xFEF } ∧ DstFits { fullAead with aad := 0xFEF } ∧ AadFits { fullAead with aad := 0xFEF } ∧
      AadDstOverlap { fullAead with aad := 0xFEF }) := by
  simp only [SrcFits, DstFits, AadFits, AadDstOverlap, SpansOverlap]
  decide

theorem test_wit_AeadMachineRoundTrip :
    AeadAccepted fullAead ∧ 0xFEF < fullAead.len.toNat ∧ fullAead.dst.toNat + fullAead.len.toNat ≤ 0xFF0 :=
  ⟨fullAead_accepted, by decide, by decide⟩

theorem test_wit_RefusedWritesNoOutput :
    validateWord 0 State.reset = some .illegalCmd ∧ validate .stream { State.reset with src := 0x1001 } = some .range ∧ validate .stream topStream = none := by decide

theorem test_wit_CommandFrame :
    (∃ t, exec .keygen State.reset = .next t) ∧ (∃ t, exec (.qr 0 1 2 3) State.reset = .next t) ∧
      (∃ t, exec .stream topStream = .next t) ∧ topStream.dst.toNat + topStream.len.toNat ≤ 0x80 :=
  ⟨⟨_, rfl⟩, ⟨_, rfl⟩, ⟨_, runCommand_accepted (i := .stream) (f := effectStream) (s := topStream) (by decide)⟩, by decide⟩

/-- The interrupt rises at a completion with IRQ_EN = 1, and at the write that sets IRQ_EN while DONE = 1. -/
theorem test_wit_InterruptRises :
    nextIs (step { busyBlock with irqEn := true }) (fun t => t.irq) = true ∧
      ({ busyBlock with irqEn := true } : State).irq = false ∧
      nextIs (step { State.reset with done := true, inputs := [.host (.write 0x8#17 .word 0xF#4 1)] }) (fun t => t.irq) = true ∧
      ({ State.reset with done := true, inputs := [.host (.write 0x8#17 .word 0xF#4 1)] } : State).irq = false := by decide

theorem irqBusy_inv : ({ busyBlock with irqEn := true } : State).Inv where
  cfgWf := busyBlock_inv.cfgWf
  bufWf := busyBlock_inv.bufWf
  bufWithin := busyBlock_inv.bufWithin
  pendingIsCmd := busyBlock_inv.pendingIsCmd
  pendingValid := by intro i h; injection h with h; subst h; decide
  busyReport := fun _ => ⟨rfl, rfl⟩
  errorRaised := nofun
  heldInReset := nofun

theorem test_wit_InterruptCleared :
    (0x0000000E#32).getLsbD 1 = true ∧ (0xFFFFFFFE#32).getLsbD 0 = false ∧ State.reset.busy = false ∧
      validateWord 2 State.reset = none := by decide

theorem test_wit_WdropSticky :
    nextIs (step { State.reset with wdrop := true, inputs := [.host (.write 0xC#17 .word 0xF#4 8)] })
      (fun t => !t.wdrop) = true ∧
    nextIs (step { State.reset with wdrop := true, inputs := [.resetAssert] }) (fun t => !t.wdrop) = true ∧
    nextIs (step { busyBlock with inputs := [.host (.write 0x40#17 .word 0xF#4 8)] }) (fun t => t.wdrop) = true := by decide

theorem test_wit_BusyTransitions :
    (State.reset.busy = false ∧
      nextIs (step { State.reset with inputs := [.host (.write 0x10#17 .word 0xF#4 2)] }) (fun t => t.busy) = true) ∧
    (busyBlock.busy = true ∧ nextIs (step busyBlock) (fun t => !t.busy) = true ∧
      nextIs (step { busyBlock with inputs := [.resetAssert] }) (fun t => !t.busy) = true) := by decide

theorem test_wit_ResetAbandonsCommand :
    busyStream.pending = some .stream ∧ busyStream.dst.toNat + busyStream.len.toNat ≤ 4096 ∧ busyBlock.pending = some .block ∧
      ¬ (Instr.block = .stream ∨ Instr.block = .aeadEnc ∨ Instr.block = .aeadDec) ∧
      ({ busyStream with inputs := [.resetAssert] } : State).inputs = .resetAssert :: [] ∧
      ({ assertReset busyStream with inputs := [.resetRelease] } : State).inputs = .resetRelease :: [] := by decide

theorem test_wit_HostRefusedInReset :
    ({ assertReset State.reset with inputs := [.host (rd .id)] } : State).inputs = .host (rd .id) :: [] ∧
      (assertReset State.reset).inReset = true ∧ State.reset.inReset = false := by decide

theorem test_wit_StepRunsPendingCommand :
    (busyBlock.pending = some .block ∧ busyBlock.inputs = []) ∧
      ({ busyBlock with inputs := [.engine] } : State).inputs = .engine :: [] ∧
      (State.reset.pending = none ∧ State.reset.inputs = []) ∧
      ({ State.reset with inputs := [.engine] } : State).inputs = .engine :: [] ∧
      decodeTableWord 32 0x00C84001 = some (.qr 0 4 8 12) := by decide

/-- A test on the program that a run under a schedule leaves. -/
def runIs (o : Host.Outcome Running Fault Refusal) (p : Running → Bool) : Bool :=
  match o with
  | .next r => p r
  | .fault _ => false
  | .refused _ => false

/-- `RUN BLOCK`: the poll before the engine's turn does not end `WAIT`, the one after it does (R87); STATUS is 1 at the one and 2 at
the other (R27), and the program records both. -/
theorem test_wait_ends_when_idle :
    runIs (runProgram [.host, .host] (.start (runCmd .block) State.reset)) (fun r => r.left == [.wait] && r.recorded == [1#32]) = true ∧
    runIs (runProgram [.host, .host, .engine, .host] (.start (runCmd .block) State.reset))
      (fun r => r.left == [] && !r.block.busy && r.recorded == [1#32, 2#32]) = true := by decide

/-- `WR SRC, 0x10`, `RD ID`, `RD SRC`: the program has both values it read, in order (R24, R34, R86). -/
theorem test_program_records_each_read :
    runIs (runProgram [.host, .host, .host] (.start (program [wr .src 0x10#32, rd .id, rd .src]) State.reset))
      (fun r => r.left == [] && r.recorded == [0x0C201305#32, 0x10#32]) = true := by decide

theorem test_wit_IssueThenCompletion :
    (State.reset.busy = false ∧ State.reset.inReset = false ∧ validate .block State.reset = none) ∧
      ((State.reset.busy && drawnWhileBusy (.reg (.state 15))) = false ∧ (busyBlock.busy && drawnWhileBusy (.reg (.tag 3))) = true ∧
        busyBlock.inReset = false) ∧
      (State.reset.cfg.wf = true ∧ 0xFFC % 4 = 0 ∧ 0xFFC < State.reset.cfg.bufBytes) ∧
      ({ State.reset with inputs := [.host (wr .cmd 2), .engine] } : State).inputs = .host (wr .cmd 2) :: .engine :: [] ∧
      decode 2 = .ok .block ∧ validate .block { State.reset with inputs := [.host (wr .cmd 2), .engine] } = none := by decide

theorem test_wit_StepKeepsInv : busyBlock.Inv ∧ ∃ t, step busyBlock = .next t := ⟨busyBlock_inv, _, rfl⟩

theorem test_wit_ResultIndependentOfLatency : busyBlock.Inv ∧ busyBlock.pending = some .block := ⟨busyBlock_inv, rfl⟩

theorem test_wit_CompletionIsEventual :
    busyBlock.Inv ∧ busyBlock.pending = some .block ∧ .resetAssert ∉ busyBlock.inputs ∧ .resetRelease ∉ busyBlock.inputs :=
  ⟨busyBlock_inv, rfl, by decide, by decide⟩

end Sys2Proof.Tests
end

section
/-! The host's registers and report bits (10_state.md): how one host access of a register acts, what it does to WDROP, and the
obligations of that family. -/

namespace Sys2Proof.Proofs

open Sys2Proof Sys2Proof.Machine Sys2Proof.Claims

/-! ### One host access of a register, by the case the model's access takes -/

/-- A write of a register that the host reaches takes effect: any register while idle, CTRL and STATUS always (R46). -/
theorem hostAccess_wr_effective {r : Reg} {s : State} (h : s.busy = true → writableWhileBusy (.reg r) = true) (v : Word) :
    hostAccess (wr r v) s = respond .okay none (writeReg r v s) := by
  rw [hostAccess_wr, if_neg (by simpa using h)]

theorem hostAccess_wr_idle {s : State} (h : s.busy = false) (r : Reg) (v : Word) :
    hostAccess (wr r v) s = respond .okay none (writeReg r v s) :=
  hostAccess_wr_effective (by simp [h]) v

theorem hostAccess_wr_ctrl (v : Word) (s : State) : hostAccess (wr .ctrl v) s = respond .okay none (writeCtrl v s) :=
  hostAccess_wr_effective (fun _ => rfl) v

theorem hostAccess_wr_status (v : Word) (s : State) : hostAccess (wr .status v) s = respond .okay none (writeStatus v s) :=
  hostAccess_wr_effective (fun _ => rfl) v

theorem writableWhileBusy_reg {r : Reg} (h : r ≠ .ctrl) (h' : r ≠ .status) : writableWhileBusy (.reg r) = false := by
  cases r with
  | ctrl => exact absurd rfl h
  | status => exact absurd rfl h'
  | _ => rfl

theorem hostAccess_wr_dropped {r : Reg} {s : State} (hb : s.busy = true) (h : r ≠ .ctrl) (h' : r ≠ .status) (v : Word) :
    hostAccess (wr r v) s = respond .okay none (dropWrite s) := by
  rw [hostAccess_wr, if_pos (by simp [hb, writableWhileBusy_reg h h'])]

theorem hostAccess_wrb_dropped {s : State} {o : Nat} (hw : s.cfg.wf = true) (hb : s.busy = true) (h4 : o % 4 = 0)
    (h : o < s.cfg.bufBytes) (v : Word) : hostAccess (wrb o v) s = respond .okay none (dropWrite s) := by
  rw [hostAccess_wrb hw h4 h, if_pos hb]

/-- A read of a register that R47 does not name returns its current value, busy or not. -/
theorem hostAccess_rd_current {r : Reg} (h : drawnWhileBusy (.reg r) = false) (s : State) :
    hostAccess (rd r) s = respond .okay (some (readReg r s)) s := by
  rw [hostAccess_rd, if_neg (by simp [h])]

/-- An access with an ERROR response changes the response alone (R67 to R69). -/
theorem hostAccess_of_busError {a : Access} {s : State} (h : busError a s = true) :
    ∃ d, hostAccess a s = respond .error d s := by
  cases a with
  | read off width => exact ⟨some 0, by simp [hostAccess, hostRead, h]⟩
  | write off width en v => exact ⟨none, by simp [hostAccess, hostWrite, h]⟩

/-! ### Register values and writes -/

@[simp] theorem readReg_respond (r : Reg) (b : BusStatus) (d : Option Word) (s : State) :
    readReg r (respond b d s) = readReg r s := by
  cases r <;> rfl

/-- A dropped write shows in STATUS alone. -/
theorem readReg_dropWrite {r : Reg} (h : r ≠ .status) (s : State) : readReg r (dropWrite s) = readReg r s := by
  cases r with
  | status => exact absurd rfl h
  | _ => rfl

theorem writeReg_readOnly {r : Reg} (h : readOnly r = true) (v : Word) (s : State) : writeReg r v s = s := by
  cases r with
  | id | bufsize | tag => rfl
  | _ => cases h

theorem ne_status_of_readOnly {r : Reg} (h : readOnly r = true) : r ≠ .status := by
  rintro rfl
  cases h

theorem ne_ctrl_of_readOnly {r : Reg} (h : readOnly r = true) : r ≠ .ctrl := by
  rintro rfl
  cases h

/-- A read-only register takes a write with OKAY and keeps its value, whether the write is dropped or ignored. -/
theorem hostAccess_wr_readOnly {r : Reg} (h : readOnly r = true) (v : Word) (s : State) :
    (hostAccess (wr r v) s).resp = some { status := .okay, data := none } ∧
    readReg r (hostAccess (wr r v) s) = readReg r s := by
  cases hb : s.busy with
  | false => simp [hostAccess_wr_idle hb, writeReg_readOnly h]
  | true =>
    simp [hostAccess_wr_dropped hb (ne_ctrl_of_readOnly h) (ne_status_of_readOnly h),
      readReg_dropWrite (ne_status_of_readOnly h)]

theorem writeCtrl_congr {v w : Word} (h : v.getLsbD 0 = w.getLsbD 0) (s : State) : writeCtrl v s = writeCtrl w s := by
  rw [writeCtrl, writeCtrl, h]

theorem writeStatus_congr {v w : Word} (h : ∀ k, 1 ≤ k → k ≤ 3 → v.getLsbD k = w.getLsbD k) (s : State) :
    writeStatus v s = writeStatus w s := by
  rw [writeStatus, writeStatus, h 1 (by decide) (by decide), h 2 (by decide) (by decide), h 3 (by decide) (by decide)]

theorem ctrlWord_eq (s : State) : ctrlWord s = if s.irqEn then 1#32 else 0#32 := by
  cases h : s.irqEn <;> simp [ctrlWord, h]

/-- A legal buffer size fits a word (R9). -/
theorem bufBytes_lt {c : Config} (h : c.wf = true) : c.bufBytes < 2 ^ 32 := by
  simp only [Config.wf, Bool.and_eq_true, decide_eq_true_eq] at h
  omega

/-! ### Issue of a command -/

/-- A word that validation refuses is stored and its error reported (R44, R167). -/
theorem issue_refused {v : Word} {s : State} {e : ErrCode} (h : validateWord v s = some e) :
    issue v s = { refusedWith e s with cmd := v } := by
  rcases issue_cases v s with ⟨e', he, hi⟩ | ⟨i, hd, hv, _⟩
  · obtain rfl : e' = e := by simpa [he] using h
    exact hi
  · simp [validateWord, hd, hv] at h

/-- A word that validation accepts decodes to the command that is then pending (R44). -/
theorem issue_accepted {v : Word} {s : State} (h : validateWord v s = none) :
    ∃ i, decode v = .ok i ∧ issue v s = { s with cmd := v, pending := some i, done := false, error := none } := by
  rcases issue_cases v s with ⟨e, he, _⟩ | ⟨i, hd, _, hi⟩
  · simp [he] at h
  · exact ⟨i, hd, hi⟩

/-! ### WDROP -/

theorem issue_wdrop (v : Word) (s : State) : (issue v s).wdrop = s.wdrop := by
  rcases issue_cases v s with ⟨e, _, h⟩ | ⟨i, _, _, h⟩ <;> rw [h]

theorem writeLocation_status_wdrop (v : Word) (s : State) :
    (writeLocation (.reg .status) v s).wdrop = (s.wdrop && !v.getLsbD 3) := rfl

theorem writeLocation_wdrop {l : Location} (h : l ≠ .reg .status) (v : Word) (s : State) :
    (writeLocation l v s).wdrop = s.wdrop := by
  cases l with
  | buffer o => rfl
  | unmapped => rfl
  | reg r =>
    cases r with
    | status => exact absurd rfl h
    | cmd => exact issue_wdrop v s
    | _ => rfl

/-- Completion, successful or not, leaves WDROP (R31). -/
theorem exec_wdrop {i : Instr} {s t : State} (h : exec i s = .next t) : t.wdrop = s.wdrop := by
  rcases exec_cases i s with ⟨e, _, he⟩ | ⟨_, x, p, g, b, he, _⟩ <;>
  · rw [he] at h
    cases h
    rfl

/-- What one host transaction can do to WDROP: keep it, set it as a write dropped while BUSY, or clear it as a write of STATUS with
bit 3 = 1 (R31, R46). -/
theorem hostAccess_wdrop_cases (a : Access) (s : State) :
    (hostAccess a s).wdrop = s.wdrop ∨
    (s.busy = true ∧ (∃ off v, a = .write off .word 0xF#4 v) ∧ (hostAccess a s).wdrop = true) ∨
    ((∃ off v, a = .write off .word 0xF#4 v ∧ off.toNat = 0x00C ∧ v.getLsbD 3 = true) ∧
      (hostAccess a s).wdrop = false) := by
  rcases hostAccess_cases a s with ⟨_, d, h⟩ | ⟨_, _, _, h⟩ | ⟨_, w, h⟩ | ⟨he, hb, ⟨off, width, en, v, rfl⟩, h⟩ |
    ⟨he, off, width, en, v, rfl, _, h⟩ <;> rw [h]
  · exact .inl rfl
  · exact .inl rfl
  · exact .inl rfl
  · obtain ⟨rfl, rfl, _⟩ := write_of_no_busError he
    exact .inr (.inl ⟨hb, ⟨off, v, rfl⟩, rfl⟩)
  · obtain ⟨rfl, rfl, _⟩ := write_of_no_busError he
    by_cases hl : locate s.cfg.bufBytes off.toNat = .reg .status
    · cases hv : v.getLsbD 3 with
      | false => exact .inl (by rw [respond_wdrop, hl, writeLocation_status_wdrop, hv, Bool.not_false, Bool.and_true])
      | true =>
        refine .inr (.inr ⟨⟨off, v, rfl, offset_of_locate_reg hl, hv⟩, ?_⟩)
        rw [respond_wdrop, hl, writeLocation_status_wdrop, hv, Bool.not_true, Bool.and_false]
    · exact .inl (by rw [respond_wdrop, writeLocation_wdrop hl])

/-- What one step can do to WDROP: keep it, set it by a host write while BUSY, clear it by a host write of STATUS with bit 3 = 1, or
take an assertion of reset (R31). -/
theorem step_wdrop_cases {s t : State} (h : step s = .next t) :
    t.wdrop = s.wdrop ∨
    (s.busy = true ∧ (∃ off v rest, s.inputs = .host (.write off .word 0xF#4 v) :: rest) ∧ t.wdrop = true) ∨
    ((∃ off v rest, s.inputs = .host (.write off .word 0xF#4 v) :: rest ∧ off.toNat = 0x00C ∧ v.getLsbD 3 = true) ∧
      t.wdrop = false) ∨
    ((∃ rest, s.inputs = .resetAssert :: rest) ∧ t.wdrop = false) := by
  rcases step_cases h with ⟨_, ⟨i, _, he⟩ | ⟨_, rfl⟩⟩ | ⟨a, rest, hin, _, rfl⟩ | ⟨rest, hin, rfl⟩ | ⟨rest, _, rfl⟩
  · exact .inl (exec_wdrop he :)
  · exact .inl rfl
  · rcases hostAccess_wdrop_cases a (setInputs rest s) with hk | ⟨hb, ⟨off, v, rfl⟩, ht⟩ | ⟨⟨off, v, rfl, ho, hv⟩, ht⟩
    · exact .inl hk
    · exact .inr (.inl ⟨hb, ⟨off, v, rest, hin⟩, ht⟩)
    · exact .inr (.inr (.inl ⟨⟨off, v, rest, hin, ho, hv⟩, ht⟩))
  · exact .inr (.inr (.inr ⟨⟨rest, hin⟩, rfl⟩))
  · exact .inl rfl

/-! ### The obligations -/

/-- Settles O10: the model's write of a read-only register is the identity, and CTRL and STATUS read their bits 0 and 1 to 3 alone. -/
theorem readOnlyWritesIgnored : Obligations.ReadOnlyWritesIgnored := by
  refine ⟨fun s r v hb hr => ?_, fun s r v hr => hostAccess_wr_readOnly hr v s, fun s v w h => ?_, fun s v w h => ?_,
    fun s v => ?_⟩
  · rw [hostAccess_wr_idle hb, writeReg_readOnly hr]
  · rw [hostAccess_wr_ctrl, hostAccess_wr_ctrl, writeCtrl_congr h]
  · rw [hostAccess_wr_status, hostAccess_wr_status, writeStatus_congr h]
  · rw [hostAccess_wr_ctrl, hostAccess_wr_status]
    exact ⟨rfl, rfl⟩

/-- Settles O14: an idle write of CMD is an issue, in its refused and its accepted case. -/
theorem commandIssue : Obligations.CommandIssue := by
  intro s v hb
  rw [hostAccess_wr_idle hb, writeReg]
  refine ⟨fun e he => by rw [issue_refused he], fun hv => ?_⟩
  obtain ⟨i, hd, hi⟩ := issue_accepted hv
  exact ⟨i, hd, by rw [hi]⟩

/-- Settles O17: the dropped, the effective and the refused write of the host, each by its own lemma. -/
theorem busyWritesDropped : Obligations.BusyWritesDropped := by
  refine ⟨fun s r v hb hc hs => hostAccess_wr_dropped hb hc hs v, fun s o v hw hb h4 ho => hostAccess_wrb_dropped hw hb h4 ho v,
    fun s v _ => ⟨hostAccess_wr_ctrl v s, hostAccess_wr_status v s⟩, fun s a _ he => ?_⟩
  obtain ⟨d, h⟩ := hostAccess_of_busError he
  rw [h, respond_wdrop]

/-- Settles O19: of the cases of a host access, a read takes the ERROR response, the free draw or the plain read. -/
theorem readsHaveNoSideEffect : Obligations.ReadsHaveNoSideEffect := by
  intro s off width
  rcases hostAccess_cases (.read off width) s with
    ⟨_, d, h⟩ | ⟨_, hb, _, h⟩ | ⟨_, w, h⟩ | ⟨_, _, ⟨_, _, _, _, ha⟩, _⟩ | ⟨_, _, _, _, _, ha, _⟩
  · exact ⟨_, s.draws, h, fun _ => rfl⟩
  · exact ⟨_, s.draws + 1, h, by simp [hb]⟩
  · exact ⟨_, s.draws, h, fun _ => rfl⟩
  · cases ha
  · cases ha

/-- Settles O49: each clause on a step is read off the four things a step can do to WDROP. -/
theorem wdropSticky : Obligations.WdropSticky := by
  refine ⟨fun s r v hb hc hs => ?_, fun s o v hw hb h4 ho => ?_, fun s t h hs ht => ?_, fun s t h hs ht => ?_⟩
  · rw [hostAccess_wr_dropped hb hc hs, respond_wdrop, dropWrite_wdrop]
  · rw [hostAccess_wrb_dropped hw hb h4 ho, respond_wdrop, dropWrite_wdrop]
  · rcases step_wdrop_cases h with hk | ⟨_, _, hset⟩ | ⟨⟨off, v, rest, hin⟩, _⟩ | ⟨hreset, _⟩
    · simp [hk, hs] at ht
    · simp [hset] at ht
    · exact .inl ⟨off, v, rest, hin⟩
    · exact .inr hreset
  · rcases step_wdrop_cases h with hk | ⟨hb, hin, _⟩ | ⟨_, hclear⟩ | ⟨_, hclear⟩
    · simp [hk, hs] at ht
    · exact ⟨hb, hin⟩
    · simp [hclear] at ht
    · simp [hclear] at ht

/-- Settles O7: neither constant is drawn while BUSY, and a legal buffer size fits a word. -/
theorem identificationReads : Obligations.IdentificationReads := by
  intro s hw
  rw [hostAccess_rd_current rfl, hostAccess_rd_current rfl]
  exact ⟨rfl, _, rfl, by rw [readReg, BitVec.toNat_ofNat, Nat.mod_eq_of_lt (bufBytes_lt hw)]⟩

/-- Settles O13: CTRL is written and read as usual even while BUSY, and `irq` is a conjunction with IRQ_EN. -/
theorem ctrlRegister : Obligations.CtrlRegister := by
  refine ⟨fun s v => hostAccess_wr_ctrl v s, fun s => ?_, fun s hr hi => ?_, fun s hi => ?_, ctrlWord_eq _⟩
  · rw [hostAccess_rd_current rfl, respond_resp, readReg, ctrlWord_eq]
  · simp [State.irq, hr, hi]
  · simp [State.irq, hi]

end Sys2Proof.Proofs
end

section
/-! The host window (20_memory.md): what an offset names, which accesses get an ERROR response, and the obligations of that family. -/

namespace Sys2Proof.Proofs

open Sys2Proof Sys2Proof.Machine Sys2Proof.Claims

/-! ### The map of the window -/

/-- The register window holds registers and unmapped offsets, and no buffer byte (R64). -/
theorem locate_registerWindow (n : Nat) {off : Nat} (h : off < 0x10000) :
    (∃ r, locate n off = .reg r) ∨ locate n off = .unmapped := by
  rw [locate, if_pos h]
  cases regAt off with
  | some r => exact .inl ⟨r, rfl⟩
  | none => exact .inr rfl

theorem locate_aboveBuffer {n off : Nat} (h : 0x10000 + n ≤ off) : locate n off = .unmapped := by
  rw [locate, if_neg (by omega), if_neg (by omega)]

/-! ### The accesses with an ERROR response -/

theorem busError_read_iff (off : BitVec 17) (width : Width) (s : State) :
    busError (.read off width) s = true ↔
      width ≠ .word ∨ off.toNat % 4 ≠ 0 ∨ locate s.cfg.bufBytes off.toNat = .unmapped := by
  simp only [busError_iff, Access.wf, Access.offset, Bool.and_eq_false_iff, decide_eq_false_iff_not, beq_eq_false_iff_ne,
    or_assoc]

theorem busError_write_iff (off : BitVec 17) (width : Width) (en : BitVec 4) (v : Word) (s : State) :
    busError (.write off width en v) s = true ↔
      width ≠ .word ∨ en ≠ 0xF#4 ∨ off.toNat % 4 ≠ 0 ∨ locate s.cfg.bufBytes off.toNat = .unmapped := by
  simp only [busError_iff, Access.wf, Access.offset, Bool.and_eq_false_iff, decide_eq_false_iff_not, beq_eq_false_iff_ne,
    or_assoc]

/-- A read with an ERROR response returns 0, a misaligned one among them (R67 to R69, D4). -/
theorem hostAccess_read_of_busError {off : BitVec 17} {width : Width} {s : State} (h : busError (.read off width) s = true) :
    hostAccess (.read off width) s = respond .error (some 0) s := by
  rw [hostAccess, hostRead, if_pos h]

theorem hostAccess_write_of_busError {off : BitVec 17} {width : Width} {en : BitVec 4} {v : Word} {s : State}
    (h : busError (.write off width en v) s = true) :
    hostAccess (.write off width en v) s = respond .error none s := by
  rw [hostAccess, hostWrite, if_pos h]

/-! ### The obligations -/

/-- Settles O6: the map read at every register's own offset, then the register window and the two parts above it. -/
theorem hostWindowMap : Obligations.HostWindowMap := by
  refine ⟨fun n => ?_, fun n off off' r h h' => ?_, fun n off h => locate_registerWindow n h, locate_buffer,
    fun n off h => locate_aboveBuffer h⟩
  · exact ⟨locate_reg n .id, locate_reg n .bufsize, locate_reg n .ctrl, locate_reg n .status, locate_reg n .cmd,
      locate_reg n .counter, locate_reg n .src, locate_reg n .dst, locate_reg n .len, locate_reg n .aad, locate_reg n .aadLen,
      fun i => locate_reg n (.key i), fun i => locate_reg n (.nonce i), fun i => locate_reg n (.tag i),
      fun i => locate_reg n (.pkey i), fun i => locate_reg n (.state i)⟩
  · rw [offset_of_locate_reg h, offset_of_locate_reg h']

/-- Settles O20: each condition of the rule makes the access a bus error, and a bus error changes the response alone. -/
theorem busErrorHasNoEffect : Obligations.BusErrorHasNoEffect := by
  refine ⟨fun s off width h => ?_, fun s off width h => ⟨some 0, ?_⟩, fun s off width en v h => ?_⟩
  · exact hostAccess_read_of_busError ((busError_read_iff off width s).2 (h.imp_right .inr))
  · exact hostAccess_read_of_busError ((busError_read_iff off width s).2 (.inr (.inl h)))
  · exact hostAccess_write_of_busError ((busError_write_iff off width en v s).2 h)

end Sys2Proof.Proofs
end

section
/-! The command word (30_encoding.md): a word is fixed by its fields, which words the rows of the opcode map match, and the obligations
of that family. -/

namespace Sys2Proof.Proofs

open Sys2Proof Sys2Proof.Machine Sys2Proof.Claims

/-! ### The fields of a word (R80) -/

/-- OP, bits [7:4], bits [23:8] and bits [31:24] make up the word. -/
theorem word_eq_iff_fields (v w : Word) :
    v = w ↔ Word.op v = Word.op w ∧ Word.reservedLow v = Word.reservedLow w ∧ Word.operandBits v = Word.operandBits w ∧
      Word.reservedHigh v = Word.reservedHigh w := by
  refine ⟨by rintro rfl; exact ⟨rfl, rfl, rfl, rfl⟩, fun ⟨hop, hlow, hbits, hhigh⟩ => BitVec.eq_of_toNat_eq ?_⟩
  simp only [Word.op, Word.reservedLow, Word.operandBits, Word.reservedHigh, ← BitVec.toNat_inj,
    BitVec.extractLsb'_toNat, Nat.shiftRight_eq_div_pow] at hop hlow hbits hhigh
  omega

/-! ### The words that the rows match (R82) -/

/-- The mask of the QR row keeps OP and the reserved bits and clears the operand bits. -/
theorem fields_and_qrMask (v : Word) :
    Word.op (v &&& 0xFF0000FF#32) = Word.op v ∧ Word.reservedLow (v &&& 0xFF0000FF#32) = Word.reservedLow v ∧
      Word.operandBits (v &&& 0xFF0000FF#32) = 0#16 ∧ Word.reservedHigh (v &&& 0xFF0000FF#32) = Word.reservedHigh v := by
  simp only [Word.op, Word.reservedLow, Word.operandBits, Word.reservedHigh, BitVec.extractLsb'_and]
  exact ⟨BitVec.and_allOnes, BitVec.and_allOnes, BitVec.and_zero, BitVec.and_allOnes⟩

/-- A word is in the QR row when its OP is 1 and its reserved bits are 0, whatever its operand bits. -/
theorem rowMatches_qr_iff (v : Word) :
    rowMatches v 0x00000001#32 0xFF0000FF#32 = true ↔
      Word.op v = 1#4 ∧ Word.reservedLow v = 0#4 ∧ Word.reservedHigh v = 0#8 := by
  obtain ⟨hop, hlow, hbits, hhigh⟩ := fields_and_qrMask v
  rw [rowMatches, beq_iff_eq, word_eq_iff_fields, hop, hlow, hbits, hhigh]
  simp [Word.op, Word.reservedLow, Word.operandBits, Word.reservedHigh]

/-- A word is the word of one of the six rows without operands when its OP is 2 to 7 and every other bit is 0. -/
theorem exactRow_iff (v : Word) :
    (v = 2 ∨ v = 3 ∨ v = 4 ∨ v = 5 ∨ v = 6 ∨ v = 7) ↔
      (2 ≤ (Word.op v).toNat ∧ (Word.op v).toNat < 8) ∧ Word.reservedLow v = 0#4 ∧ Word.operandBits v = 0#16 ∧
        Word.reservedHigh v = 0#8 := by
  simp only [Word.op, Word.reservedLow, Word.operandBits, Word.reservedHigh, ← BitVec.toNat_inj,
    BitVec.extractLsb'_toNat, Nat.shiftRight_eq_div_pow, BitVec.ofNat_eq_ofNat, BitVec.toNat_ofNat]
  omega

/-- A word decodes to a command when a row of the opcode map matches it. -/
theorem decode_ok_iff_rowMatches (v : Word) :
    (∃ i, decode v = .ok i) ↔
      rowMatches v 0x00000001#32 0xFF0000FF#32 = true ∨ v = 2 ∨ v = 3 ∨ v = 4 ∨ v = 5 ∨ v = 6 ∨ v = 7 := by
  rw [decode_eq]
  split_ifs <;> simp_all

/-- The legal words of R83, in the numbers of the fields. -/
theorem wellFormedWord_iff (v : Word) :
    wellFormedWord v = true ↔
      ((Word.op v).toNat ≠ 0 ∧ (Word.op v).toNat < 8) ∧ Word.reservedLow v = 0#4 ∧ Word.reservedHigh v = 0#8 ∧
        ((Word.op v).toNat = 1 ∨ Word.operandBits v = 0#16) := by
  simp [wellFormedWord, ← BitVec.toNat_inj, and_assoc]

/-- The decoder answers a command for the legal words of R83 and for no other word. -/
theorem decode_ok_iff_wellFormedWord (v : Word) : (∃ i, decode v = .ok i) ↔ wellFormedWord v = true := by
  have hop : (Word.op v).toNat ≠ 0 ∧ (Word.op v).toNat < 8 ↔
      Word.op v = 1#4 ∨ (2 ≤ (Word.op v).toNat ∧ (Word.op v).toNat < 8) := by
    rw [← BitVec.toNat_inj, show (1#4).toNat = 1 from rfl]
    omega
  have hone : (Word.op v).toNat = 1 ↔ Word.op v = 1#4 := BitVec.toNat_inj (y := 1#4)
  rw [decode_ok_iff_rowMatches, rowMatches_qr_iff, exactRow_iff, wellFormedWord_iff, hop, hone]
  tauto

/-! ### The word of a QR command (R81, R85) -/

/-- An index placed at a bit position is read back there. -/
theorem extractLsb'_placed_same (x : BitVec 4) {n : Nat} (h : n + 4 ≤ 32) :
    (x.setWidth 32 <<< n).extractLsb' n 4 = x := by
  ext k hk
  simp [show n + k < 32 by omega, hk]

/-- An index placed at a bit position leaves the fields beside it 0. -/
theorem extractLsb'_placed_apart (x : BitVec 4) {m n : Nat} (h : m + 4 ≤ n ∨ n + 4 ≤ m) :
    (x.setWidth 32 <<< n).extractLsb' m 4 = 0#4 := by
  ext k hk
  simp only [BitVec.getElem_extractLsb', BitVec.getLsbD_shiftLeft, BitVec.getLsbD_setWidth, BitVec.getElem_zero]
  rcases h with hbelow | habove
  · simp [show m + k < n by omega]
  · simp [BitVec.getLsbD_of_ge x (m + k - n) (by omega)]

/-- The operand fields of a QR word are the command's four indices. -/
theorem fields_encode_qr (a b c d : BitVec 4) :
    fieldQA (encode (.qr a b c d)) = a ∧ fieldQB (encode (.qr a b c d)) = b ∧ fieldQC (encode (.qr a b c d)) = c ∧
      fieldQD (encode (.qr a b c d)) = d := by
  simp (disch := decide) only [fieldQA, fieldQB, fieldQC, fieldQD, encode, BitVec.extractLsb'_or, extractLsb'_placed_same,
    extractLsb'_placed_apart, BitVec.or_zero]
  -- What is left of each field is the bits of 0x00000001 there, which are 0, and the index.
  exact ⟨BitVec.zero_or, BitVec.zero_or, BitVec.zero_or, BitVec.zero_or⟩

/-- A QR word decodes to its command, the four indices at any value. -/
theorem decode_encode_qr (a b c d : BitVec 4) : decode (encode (.qr a b c d)) = .ok (.qr a b c d) := by
  have hrow : rowMatches (encode (.qr a b c d)) 0x00000001#32 0xFF0000FF#32 = true :=
    beq_iff_eq.2 (Laws.TableRow.qr a b c d)
  obtain ⟨ha, hb, hc, hd⟩ := fields_encode_qr a b c d
  rw [decode_eq, if_pos hrow, ha, hb, hc, hd]

/-! ### The refusals -/

theorem validateWord_illegal {v : Word} (h : ¬ ∃ i, decode v = .ok i) (s : State) :
    validateWord v s = some .illegalCmd := by
  cases hd : decode v with
  | error r => simp [validateWord, hd]
  | ok i => exact absurd ⟨i, hd⟩ h

theorem indexAlias_qr_iff (a b c d : BitVec 4) : indexAlias (.qr a b c d) = true ↔ ¬ Distinct4 a b c d := by
  simp only [indexAlias, Bool.or_eq_true, beq_iff_eq]
  tauto

theorem validate_qr_aliased {a b c d : BitVec 4} (h : ¬ Distinct4 a b c d) (s : State) :
    validate (.qr a b c d) s = some .indexAlias := by
  rw [validate, if_pos ((indexAlias_qr_iff a b c d).2 h)]

theorem validateWord_of_decode {v : Word} {i : Instr} (h : decode v = .ok i) (s : State) :
    validateWord v s = validate i s := by
  simp [validateWord, h]

/-! ### The obligations -/

/-- Settles O3: the decoder answers for the legal words alone, and a word that validation refuses is reported at its issue. -/
theorem illegalWordsRefused : Obligations.IllegalWordsRefused := by
  refine ⟨fun v => ?_, fun v s h => issue_refused (validateWord_illegal h s), fun s => issue_refused rfl, fun a b c d s h => ?_⟩
  · rw [decode_ok_iff_wellFormedWord, wellFormedWord_iff, Word.op, Word.reservedLow, Word.operandBits, Word.reservedHigh]
    simp only [not_or, not_and, not_le, not_not, ne_eq]
    tauto
  · have hd := decode_encode_qr a b c d
    exact ⟨hd, issue_refused (by rw [validateWord_of_decode hd, validate_qr_aliased h])⟩

end Sys2Proof.Proofs
end

section
/-! The ChaCha20 family (40_chacha20.md): the quarter round as four assigned words of the list, the double rounds as an iteration, the
byte view of a string of words, and the obligations of that family. -/

namespace Sys2Proof.Proofs

open Sys2Proof Sys2Proof.Machine Sys2Proof.Claims

/-! ### A list with four of its words assigned (R100) -/

/-- The list `s` with the words of `q` at the indices a, b, c, d. With pairwise distinct indices every state between two assignments of a
quarter round has this form, so an assignment changes one word of `q`. -/
def withQuad (s : Vector Word 16) (a b c d : Fin 16) (q : Word × Word × Word × Word) : Vector Word 16 :=
  (((s.set a q.1).set b q.2.1).set c q.2.2.1).set d q.2.2.2

/-- The model's quarter round computes on four words and assigns them at the end (log 13). -/
theorem quarterRound_eq_withQuad (s : Vector Word 16) (a b c d : Fin 16) :
    quarterRound s a b c d = withQuad s a b c d (quarterWords s[a] s[b] s[c] s[d]) := rfl

theorem withQuad_self (s : Vector Word 16) (a b c d : Fin 16) : withQuad s a b c d (s[a], s[b], s[c], s[d]) = s := by
  simp [withQuad]

theorem withQuad_getElem_of_ne (s : Vector Word 16) {a b c d i : Fin 16} (ha : i ≠ a) (hb : i ≠ b) (hc : i ≠ c) (hd : i ≠ d)
    (q : Word × Word × Word × Word) : (withQuad s a b c d q)[i] = s[i] := by
  simp [withQuad, Fin.val_inj, ha.symm, hb.symm, hc.symm, hd.symm]

section
variable {a b c d : Fin 16} (h : Distinct4 a b c d) (s : Vector Word 16) (wa wb wc wd : Word)
include h

theorem withQuad_getElem :
    (withQuad s a b c d (wa, wb, wc, wd))[a] = wa ∧ (withQuad s a b c d (wa, wb, wc, wd))[b] = wb ∧
    (withQuad s a b c d (wa, wb, wc, wd))[c] = wc ∧ (withQuad s a b c d (wa, wb, wc, wd))[d] = wd := by
  obtain ⟨hab, hac, had, hbc, hbd, hcd⟩ := h
  simp [withQuad, Fin.val_inj, hab.symm, hac.symm, had.symm, hbc.symm, hbd.symm, hcd.symm]

theorem withQuad_set (v : Word) :
    (withQuad s a b c d (wa, wb, wc, wd)).set a v = withQuad s a b c d (v, wb, wc, wd) ∧
    (withQuad s a b c d (wa, wb, wc, wd)).set b v = withQuad s a b c d (wa, v, wc, wd) ∧
    (withQuad s a b c d (wa, wb, wc, wd)).set c v = withQuad s a b c d (wa, wb, v, wd) ∧
    (withQuad s a b c d (wa, wb, wc, wd)).set d v = withQuad s a b c d (wa, wb, wc, v) := by
  obtain ⟨hab, hac, had, hbc, hbd, hcd⟩ := h
  have comm {i j : Fin 16} (hij : i ≠ j) (t : Vector Word 16) (u : Word) : (t.set j u).set i v = (t.set i v).set j u :=
    Vector.set_comm u v (Fin.val_ne_of_ne hij.symm)
  simp only [withQuad]
  refine ⟨?_, ?_, ?_, ?_⟩
  · rw [comm had, comm hac, comm hab, Vector.set_set]
  · rw [comm hbd, comm hbc, Vector.set_set]
  · rw [comm hcd, Vector.set_set]
  · rw [Vector.set_set]

/-- The twelve assignments of R100, each reading and writing one of the four words. -/
theorem quarterRoundSteps_withQuad :
    quarterRoundSteps (withQuad s a b c d (wa, wb, wc, wd)) a b c d = withQuad s a b c d (quarterWords wa wb wc wd) := by
  simp only [quarterRoundSteps, quarterWords, withQuad_getElem h, withQuad_set h]

theorem quarterRound_eq_steps : quarterRound s a b c d = quarterRoundSteps s a b c d := by
  rw [quarterRound_eq_withQuad, ← quarterRoundSteps_withQuad h, withQuad_self]

end

/-- The rotation of R12 in plain numbers. -/
theorem rotl32_toNat (x : Word) (n : Nat) :
    (rotl32 x n).toNat = (x.toNat * 2 ^ n % 2 ^ 32) ||| (x.toNat / 2 ^ (32 - n)) := by
  rw [rotl32, BitVec.toNat_or, BitVec.toNat_shiftLeft, BitVec.toNat_ushiftRight, Nat.shiftLeft_eq, Nat.shiftRight_eq_div_pow]

/-! ### The block function (R102 to R104) and the bytes of words (R14) -/

theorem doubleRounds_eq_iterate (n : Nat) (s : Vector Word 16) : doubleRounds n s = doubleRound^[n] s := by
  induction n generalizing s with
  | zero => rfl
  | succ n ih => rw [doubleRounds_succ, ih, Function.iterate_succ_apply]

theorem initState_toList (kw : Vector Word 8) (ctr : Word) (nw : Vector Word 3) :
    (initState kw ctr nw).toList =
      [0x61707865#32, 0x3320646e#32, 0x79622d32#32, 0x6b206574#32] ++ kw.toList ++ [ctr] ++ nw.toList := by
  refine List.ext_getElem (by simp) fun i hi _ => ?_
  have hi16 : i < 16 := by simpa using hi
  interval_cases i <;> simp [initState]

/-- Byte j of a word's bytes, low byte first. -/
theorem wordBytes_getElem? (w : Word) {j : Nat} (hj : j < 4) : (wordBytes w)[j]? = some (w.extractLsb' (8 * j) 8) := by
  rw [wordBytes, List.getElem?_eq_getElem (by simpa using hj), leBytes_getElem, Option.some_inj]
  apply BitVec.eq_of_toNat_eq
  simp [Nat.shiftRight_eq_div_pow, pow_mul]

/-- Byte 4i + j of a string of words is byte j of word i. -/
theorem wordsToBytes_getElem? (ws : List Word) {i j : Nat} (hi : i < ws.length) (hj : j < 4) :
    (wordsToBytes ws)[4 * i + j]? = some (ws[i].extractLsb' (8 * j) 8) := by
  rw [← wordBytes_getElem? ws[i] hj, ← slice_wordsToBytes ws i hi, slice, List.getElem?_take_of_lt (by omega), List.getElem?_drop]

/-- The first eight bytes of the source's vector: the block of a zero key, counter and nonce. -/
theorem block_zeros_take : (block (zeros 32) 0 (zeros 12)).take 8 = [0x76, 0xb8, 0xe0, 0xad, 0xa0, 0xf1, 0x3d, 0x90] := by
  decide +kernel

/-! ### The obligations -/

/-- Settles O23: with distinct indices each of the twelve assignments acts on the four words alone. -/
theorem quarterRoundSteps : Obligations.QuarterRoundSteps :=
  ⟨fun x n _ _ => rotl32_toNat x n, fun x _ _ _ _ h =>
    ⟨quarterRound_eq_steps h x, fun _ ha hb hc hd => withQuad_getElem_of_ne x ha hb hc hd _⟩⟩

/-- Settles O26, with the model's initial state as the one that the rounds start from. -/
theorem blockFunctionByRounds : Obligations.BlockFunctionByRounds := by
  refine ⟨fun kw ctr nw => ⟨initState kw ctr nw, initState_toList kw ctr nw, fun i hi => ?_, block_wordsToBytes kw ctr nw,
    block_length _ _ _⟩, fun x => rfl, fun n w => ⟨bytesToWords_wordsToBytes w, fun i hi j hj => ?_⟩, block_zeros_take⟩
  · rw [blockWords_getElem, doubleRounds_eq_iterate]
  · have hl : i < w.toList.length := by simpa using hi
    rw [wordsToBytes_getElem? _ hl hj, Vector.getElem_toList]

end Sys2Proof.Proofs
end

section
/-! Errors and the interrupt (60_exceptions.md): the checks of validation by the word's OP, how the two bits behind `irq` come to be
set, and the obligations of that family. -/

namespace Sys2Proof.Proofs

open Sys2Proof Sys2Proof.Machine Sys2Proof.Claims

/-! ### The OP of a command (R82) -/

/-- The OP of a command's row in the opcode map. -/
def opcode : Instr → Nat
  | .qr _ _ _ _ => 1
  | .block => 2
  | .stream => 3
  | .poly => 4
  | .keygen => 5
  | .aeadEnc => 6
  | .aeadDec => 7

/-- What a word that decodes holds: its OP is the command's, and the indices of a QR command are its operand fields. -/
theorem fields_of_decode {v : Word} {i : Instr} (h : decode v = .ok i) :
    (Word.op v).toNat = opcode i ∧ (opcode i = 1 → i = .qr (fieldQA v) (fieldQB v) (fieldQC v) (fieldQD v)) := by
  rw [decode_eq] at h
  split_ifs at h with hqr <;> cases h
  · obtain ⟨hop, _, _⟩ := (rowMatches_qr_iff v).1 hqr
    exact ⟨by rw [hop]; rfl, fun _ => rfl⟩
  all_goals subst_vars; exact ⟨rfl, nofun⟩

/-! ### The checks of validation, each by the OPs it applies to (R163 to R165) -/

theorem indexAlias_iff {v : Word} {i : Instr} (h : decode v = .ok i) :
    indexAlias i = true ↔ opcode i = 1 ∧ ¬ Distinct4 (fieldQA v) (fieldQB v) (fieldQC v) (fieldQD v) := by
  cases i with
  | qr =>
    rw [(fields_of_decode h).2 rfl, indexAlias_qr_iff]
    simp [opcode]
  | _ => simp [indexAlias, opcode]

/-- Some region of the command does not fit: the source, the destination or the associated data. -/
theorem regions_any_not_fits_iff (i : Instr) (s : State) :
    (regions i s).any (fun r => !r.fits s.cfg.bufBytes) = true ↔
      ((opcode i = 3 ∨ opcode i = 4 ∨ opcode i = 6 ∨ opcode i = 7) ∧ ¬ SrcFits s) ∨
      ((opcode i = 3 ∨ opcode i = 6 ∨ opcode i = 7) ∧ ¬ DstFits s) ∨ ((opcode i = 6 ∨ opcode i = 7) ∧ ¬ AadFits s) := by
  cases i <;> simp [regions, opcode, Region.fits, srcRegion, dstRegion, aadRegion]

theorem srcDst_check_iff (i : Instr) (s : State) :
    (writesDst i && decide (s.src ≠ s.dst) && (srcRegion s).overlaps (dstRegion s)) = true ↔
      (opcode i = 3 ∨ opcode i = 6 ∨ opcode i = 7) ∧ SrcDstOverlap s := by
  have hw : writesDst i = true ↔ opcode i = 3 ∨ opcode i = 6 ∨ opcode i = 7 := by cases i <;> simp [writesDst, opcode]
  simp only [Bool.and_eq_true, decide_eq_true_eq, Region.overlaps_iff, srcRegion, dstRegion, hw, and_assoc]

theorem aadDst_check_iff (i : Instr) (s : State) :
    (readsAad i && (aadRegion s).overlaps (dstRegion s)) = true ↔ (opcode i = 6 ∨ opcode i = 7) ∧ AadDstOverlap s := by
  have hr : readsAad i = true ↔ opcode i = 6 ∨ opcode i = 7 := by cases i <;> simp [readsAad, opcode]
  simp only [Bool.and_eq_true, Region.overlaps_iff, aadRegion, dstRegion, hr]

theorem counterOverflows_iff (i : Instr) (s : State) :
    counterOverflows i s = true ↔
      (opcode i = 3 ∧ s.len.toNat > (2 ^ 32 - s.counter.toNat) * 64) ∨
      ((opcode i = 6 ∨ opcode i = 7) ∧ s.len.toNat > (2 ^ 32 - 1) * 64) := by
  cases i <;> simp [counterOverflows, opcode]

/-- The words that decode, in the numbers of the rule. -/
theorem decode_ok_iff_rows (v : Word) :
    (∃ i, decode v = .ok i) ↔
      v &&& 0xFF0000FF#32 = 1#32 ∨ v = 2#32 ∨ v = 3#32 ∨ v = 4#32 ∨ v = 5#32 ∨ v = 6#32 ∨ v = 7#32 := by
  rw [decode_ok_iff_rowMatches, rowMatches, beq_iff_eq]
  rfl

/-! ### The bits behind the interrupt output (R173) -/

theorem irq_eq_true_iff (s : State) : s.irq = true ↔ s.irqEn = true ∧ s.done = true ∧ s.inReset = false := by
  simp [State.irq, and_assoc]

/-- A write other than of CTRL keeps IRQ_EN, and DONE is set afterwards only if it was before or a command is refused. -/
theorem writeLocation_irq_cases {l : Location} (h : l ≠ .reg .ctrl) (v : Word) (s : State) :
    (writeLocation l v s).irqEn = s.irqEn ∧
      (((writeLocation l v s).done = true → s.done = true) ∨
        ((writeLocation l v s).done = true ∧ (writeLocation l v s).busy = false)) := by
  cases l with
  | buffer o => exact ⟨rfl, .inl id⟩
  | unmapped => exact ⟨rfl, .inl id⟩
  | reg r =>
    cases r with
    | ctrl => exact absurd rfl h
    | status => exact ⟨rfl, .inl fun hd => (Bool.and_eq_true_iff.1 hd).1⟩
    | cmd =>
      simp only [writeLocation, writeReg]
      rcases issue_cases v s with ⟨e, _, hi⟩ | ⟨i, _, _, hi⟩ <;> rw [hi]
      · exact ⟨rfl, .inr ⟨rfl, rfl⟩⟩
      · exact ⟨rfl, .inl nofun⟩
    | _ => exact ⟨rfl, .inl id⟩

/-- A command that completes, successful or not, sets DONE with BUSY = 0 and keeps IRQ_EN (R45, R167). -/
theorem exec_finishes {i : Instr} {s t : State} (h : exec i s = .next t) :
    t.irqEn = s.irqEn ∧ t.done = true ∧ t.busy = false := by
  rcases exec_cases i s with ⟨e, _, he⟩ | ⟨_, x, p, g, b, he, _⟩ <;>
  · rw [he] at h
    cases h
    exact ⟨rfl, rfl, rfl⟩

/-- What one host transaction can do to IRQ_EN and DONE: set neither, finish a command at its refused issue, or write IRQ_EN. -/
theorem hostAccess_irq_cases (a : Access) (s : State) :
    ((hostAccess a s).irqEn = s.irqEn ∧ ((hostAccess a s).done = true → s.done = true)) ∨
    ((hostAccess a s).irqEn = s.irqEn ∧ (hostAccess a s).done = true ∧ (hostAccess a s).busy = false) ∨
    (∃ off v, a = .write off .word 0xF#4 v ∧ off.toNat = 0x008 ∧ (hostAccess a s).irqEn = v.getLsbD 0 ∧
      (hostAccess a s).done = s.done) := by
  rcases hostAccess_cases a s with ⟨_, d, h⟩ | ⟨_, _, _, h⟩ | ⟨_, w, h⟩ | ⟨_, _, _, h⟩ | ⟨he, off, width, en, v, rfl, _, h⟩ <;>
    rw [h]
  · exact .inl ⟨rfl, id⟩
  · exact .inl ⟨rfl, id⟩
  · exact .inl ⟨rfl, id⟩
  · exact .inl ⟨rfl, id⟩
  · obtain ⟨rfl, rfl, _⟩ := write_of_no_busError he
    by_cases hl : locate s.cfg.bufBytes off.toNat = .reg .ctrl
    · refine .inr (.inr ⟨off, v, rfl, offset_of_locate_reg hl, ?_⟩)
      rw [hl]
      exact ⟨rfl, rfl⟩
    · obtain ⟨hi, hd | hd⟩ := writeLocation_irq_cases hl v s
      · exact .inl ⟨hi, hd⟩
      · exact .inr (.inl ⟨hi, hd⟩)

/-- What one step can do to IRQ_EN and DONE: set neither, finish a command, or write IRQ_EN from the host. -/
theorem step_irq_cases {s t : State} (h : step s = .next t) :
    ((t.irqEn = true → s.irqEn = true) ∧ (t.done = true → s.done = true)) ∨
    (t.irqEn = s.irqEn ∧ t.done = true ∧ t.busy = false) ∨
    (∃ off v rest, s.inputs = .host (.write off .word 0xF#4 v) :: rest ∧ off.toNat = 0x008 ∧ t.irqEn = v.getLsbD 0 ∧
      t.done = s.done) := by
  rcases step_cases h with ⟨_, ⟨i, _, he⟩ | ⟨_, rfl⟩⟩ | ⟨a, rest, hin, _, rfl⟩ | ⟨rest, _, rfl⟩ | ⟨rest, _, rfl⟩
  · exact .inr (.inl (exec_finishes he :))
  · exact .inl ⟨id, id⟩
  · rcases hostAccess_irq_cases a (setInputs rest s) with ⟨hi, hd⟩ | hf | ⟨off, v, rfl, ho, hi, hd⟩
    · exact .inl ⟨fun ht => hi ▸ ht, hd⟩
    · exact .inr (.inl hf)
    · exact .inr (.inr ⟨off, v, rest, hin, ho, hi, hd⟩)
  · exact .inl ⟨nofun, nofun⟩
  · exact .inl ⟨id, id⟩

/-- In a state of the invariant `irq` is low only if one of its two bits is 0, since both are 0 while reset is asserted (R200). -/
theorem irqEn_or_done_eq_false {s : State} (hs : s.Inv) (h : s.irq = false) : s.irqEn = false ∨ s.done = false := by
  cases hr : s.inReset with
  | true => exact .inl (hs.heldInReset hr).irqEn
  | false => rwa [State.irq, hr, Bool.not_false, Bool.and_true, Bool.and_eq_false_iff] at h

/-! ### The obligations -/

/-- Settles O15: a word that decodes has its command's OP, and each check of the model is the rule's condition for that OP. -/
theorem validationOrder : Obligations.ValidationOrder := by
  intro v s
  by_cases hv : ∃ i, decode v = .ok i
  · obtain ⟨i, hd⟩ := hv
    have hop : (v.extractLsb' 0 4).toNat = opcode i := (fields_of_decode hd).1
    rw [validateWord_of_decode hd, validateByRule, if_neg (not_not.2 ((decode_ok_iff_rows v).1 ⟨i, hd⟩)), hop]
    simp only [validate, indexAlias_iff hd, regions_any_not_fits_iff, srcDst_check_iff, aadDst_check_iff, counterOverflows_iff,
      ite_or]
    rfl
  · rw [validateWord_illegal hv, validateByRule, if_pos (mt (decode_ok_iff_rows v).2 hv)]

/-- Settles O47: a step from low to high sets DONE as a command finishes, or IRQ_EN as CTRL is written. -/
theorem interruptRises : Obligations.InterruptRises := by
  refine ⟨fun s hr => by simp [State.irq, hr], fun s t hs h hlow hhigh => ?_⟩
  have hbit := irqEn_or_done_eq_false hs hlow
  obtain ⟨hti, htd, _⟩ := (irq_eq_true_iff t).1 hhigh
  rcases step_irq_cases h with ⟨hi, hd⟩ | ⟨hi, _, hb⟩ | ⟨off, v, rest, hin, ho, hv, hd⟩
  · simp [hi hti, hd htd] at hbit
  · have hsi : s.irqEn = true := hi ▸ hti
    exact .inl ⟨hsi, hti, by simpa [hsi] using hbit, htd, hb⟩
  · have hsd : s.done = true := hd ▸ htd
    exact .inr ⟨by simpa [hsd] using hbit, hsd, off, v, rest, hin, ho, hv ▸ hti⟩

end Sys2Proof.Proofs
end

section
/-! Reset and the host (70_reset_and_hazards.md): what `rst_n` decides about a host transaction, and the obligation of that family. -/

namespace Sys2Proof.Proofs

open Sys2Proof Sys2Proof.Machine Sys2Proof.Claims

/-! ### A host transaction as the input taken -/

/-- Whatever the access, a host transaction while `rst_n` is asserted has no meaning (R203). -/
theorem takeInput_host_refused {s : State} (h : s.inReset = true) (a : Access) :
    takeInput (.host a) s = .refused .hostAccessDuringReset := by
  rw [takeInput, if_pos h]

theorem takeInput_host_accepted {s : State} (h : s.inReset = false) (a : Access) :
    takeInput (.host a) s = .next (hostAccess a s) := by
  rw [takeInput, if_neg (by simp [h])]

/-! ### The obligation -/

/-- Settles O53: the step takes the transaction, and setting the coming inputs leaves `rst_n` as it was. -/
theorem hostRefusedInReset : Obligations.HostRefusedInReset := by
  intro s a rest hin
  rw [step_cons hin]
  exact ⟨fun hr => takeInput_host_refused (s := setInputs rest s) hr a,
    fun hr => takeInput_host_accepted (s := setInputs rest s) hr a⟩

end Sys2Proof.Proofs
end

section
/-! The round trip of the command word (30_encoding.md): a QR word as a number, and the obligations on words that the earlier part on
the command word leaves. -/

namespace Sys2Proof.Proofs

open Sys2Proof Sys2Proof.Machine Sys2Proof.Claims

/-- A word of the QR row is 1 plus its four operand fields at their places (R81, R85). -/
theorem qrRow_toNat {v : Word} (h : rowMatches v 0x00000001#32 0xFF0000FF#32 = true) :
    v.toNat = 0x00000001 + (fieldQA v).toNat * 2 ^ 8 + (fieldQB v).toNat * 2 ^ 12 + (fieldQC v).toNat * 2 ^ 16 +
      (fieldQD v).toNat * 2 ^ 20 := by
  have hf := (rowMatches_qr_iff v).1 h
  simp only [Word.op, Word.reservedLow, Word.reservedHigh, ← BitVec.toNat_inj, BitVec.extractLsb'_toNat,
    Nat.shiftRight_eq_div_pow, BitVec.toNat_ofNat] at hf
  simp only [fieldQA, fieldQB, fieldQC, fieldQD, BitVec.extractLsb'_toNat, Nat.shiftRight_eq_div_pow]
  omega

theorem rowMatches_encode_qr (a b c d : BitVec 4) : rowMatches (encode (.qr a b c d)) 0x00000001#32 0xFF0000FF#32 = true :=
  beq_iff_eq.2 (Laws.TableRow.qr a b c d)

theorem encode_qr_toNat (a b c d : BitVec 4) :
    (encode (.qr a b c d)).toNat =
      0x00000001 + a.toNat * 2 ^ 8 + b.toNat * 2 ^ 12 + c.toNat * 2 ^ 16 + d.toNat * 2 ^ 20 := by
  obtain ⟨ha, hb, hc, hd⟩ := fields_encode_qr a b c d
  rw [qrRow_toNat (rowMatches_encode_qr a b c d), ha, hb, hc, hd]

theorem decode_encode (i : Instr) : decode (encode i) = .ok i := by
  cases i with
  | qr a b c d => exact decode_encode_qr a b c d
  | _ => rfl

/-- The decoder inverts the encoder: a QR word is fixed by its fields, the word of another row by the row (R84). -/
theorem encode_of_decode {v : Word} {i : Instr} (h : decode v = .ok i) : encode i = v := by
  rw [decode_eq] at h
  split_ifs at h with hqr <;> cases h
  · apply BitVec.eq_of_toNat_eq
    rw [encode_qr_toNat, qrRow_toNat hqr]
  all_goals subst_vars; rfl

/-! ### The obligations -/

/-- Settles O1: the QR row is read back field by field, the six other words match their rows. -/
theorem decodeOfEncode : Obligations.DecodeOfEncode := decode_encode

/-- Settles O2: the word of a command is fixed by the row it matches. -/
theorem encodeOfDecode : Obligations.EncodeOfDecode := fun _ _ => encode_of_decode

/-- Settles O4: the fields of a QR word do not overlap, so its value is their sum. -/
theorem qrWordValue : Obligations.QrWordValue := ⟨encode_qr_toNat, rfl, rfl⟩

/-- Settles O5: each of the written words is the one the encoder gives, so it decodes to its command. -/
theorem writtenWordsDecode : Obligations.WrittenWordsDecode :=
  ⟨decode_encode (.qr 0 4 8 12), decode_encode (.qr 3 4 9 14), decode_encode (.qr 0 1 2 3), decode_encode .block,
    decode_encode .stream, decode_encode .poly, decode_encode .keygen, decode_encode .aeadEnc, decode_encode .aeadDec⟩

end Sys2Proof.Proofs
end

section
/-! Registers and buffer words as the host reads them back (10_state.md, 20_memory.md section 3): a write followed by a read, the
transactions of `LOADB`, and the obligations on one host transaction that the earlier parts leave. -/

namespace Sys2Proof.Proofs

open Sys2Proof Sys2Proof.Machine Sys2Proof.Claims

/-! ### Reads of a register -/

theorem hostAccess_rd_idle {s : State} (h : s.busy = false) (r : Reg) :
    hostAccess (rd r) s = respond .okay (some (readReg r s)) s := by
  rw [hostAccess_rd, if_neg (by simp [h])]

theorem hostAccess_rd_drawn {r : Reg} {s : State} (hb : s.busy = true) (h : drawnWhileBusy (.reg r) = true) :
    hostAccess (rd r) s = respond .okay (some (Config.busyRead s.draws)) (countDraw s) := by
  rw [hostAccess_rd, if_pos (by simp [hb, h])]

/-- R47's registers are those whose read the model draws while BUSY. -/
theorem drawnWhileBusy_reg (r : Reg) : drawnWhileBusy (.reg r) = unspecifiedWhileBusy r := by
  cases r <;> rfl

theorem resp_rd_current {r : Reg} (h : drawnWhileBusy (.reg r) = false) (s : State) :
    (hostAccess (rd r) s).resp = some { status := .okay, data := some (readReg r s) } := by
  rw [hostAccess_rd_current h, respond_resp]

theorem resp_rd_idle {s : State} (h : s.busy = false) (r : Reg) :
    (hostAccess (rd r) s).resp = some { status := .okay, data := some (readReg r s) } := by
  rw [hostAccess_rd_idle h, respond_resp]

/-! ### A register after a plain store -/

theorem readReg_writeReg_same {r : Reg} (h : storesPlainly r = true) (v : Word) (s : State) :
    readReg r (writeReg r v s) = v := by
  cases r with
  | counter | src | dst | len | aad | aadLen => rfl
  | key i | nonce i | pkey i | state i => simp [readReg, writeReg]
  | _ => cases h

theorem readReg_writeReg_of_ne {q r : Reg} (hne : q ≠ r) (h : storesPlainly r = true) (v : Word) (s : State) :
    readReg q (writeReg r v s) = readReg q s := by
  -- Two words of one register file, at different indices.
  have file {n : Nat} (x : Vector Word n) {i j : Fin n} (hij : j ≠ i) : (x.set i v)[j] = x[j] := by
    simp [Fin.val_ne_of_ne hij.symm]
  cases r with
  | counter => cases q with | counter => exact absurd rfl hne | _ => rfl
  | src => cases q with | src => exact absurd rfl hne | _ => rfl
  | dst => cases q with | dst => exact absurd rfl hne | _ => rfl
  | len => cases q with | len => exact absurd rfl hne | _ => rfl
  | aad => cases q with | aad => exact absurd rfl hne | _ => rfl
  | aadLen => cases q with | aadLen => exact absurd rfl hne | _ => rfl
  | key i => cases q with | key j => exact file s.key (fun e => hne (e ▸ rfl)) | _ => rfl
  | nonce i => cases q with | nonce j => exact file s.nonce (fun e => hne (e ▸ rfl)) | _ => rfl
  | pkey i => cases q with | pkey j => exact file s.pkey (fun e => hne (e ▸ rfl)) | _ => rfl
  | state i => cases q with | state j => exact file s.state (fun e => hne (e ▸ rfl)) | _ => rfl
  | _ => cases h

theorem writeReg_plain_busy {r : Reg} (h : storesPlainly r = true) (v : Word) (s : State) :
    (writeReg r v s).busy = s.busy := by
  cases r with
  | id | bufsize | ctrl | status | cmd | tag => cases h
  | _ => rfl

theorem writeReg_plain_byteAt {r : Reg} (h : storesPlainly r = true) (v : Word) (s : State) (a : Nat) :
    (writeReg r v s).byteAt a = s.byteAt a := by
  cases r with
  | id | bufsize | ctrl | status | cmd | tag => cases h
  | _ => rfl

/-! ### Bytes written to the buffer -/

theorem byteAt_writeBytes_inside (m : Memory) (o : Nat) {bs : List Byte} {k : Nat} (h : k < bs.length) :
    Memory.byteAt (Memory.writeBytes m o bs) (o + k) = bs[k] := by
  rw [byteAt_writeBytes, dif_pos (by omega)]
  simp

theorem writeBytes_append (m : Memory) (o : Nat) (bs cs : List Byte) :
    Memory.writeBytes m o (bs ++ cs) = Memory.writeBytes (Memory.writeBytes m o bs) (o + bs.length) cs := by
  induction bs generalizing m o with
  | nil => rfl
  | cons b bs ih => rw [List.cons_append, Memory.writeBytes, ih, Memory.writeBytes, List.length_cons, Nat.add_right_comm,
      Nat.add_assoc]

/-- No register reads the buffer or the last response. -/
theorem readReg_buf_resp (q : Reg) (s : State) (b : Memory) (r : Option Response) :
    readReg q { s with buf := b, resp := r } = readReg q s := by
  cases q <;> rfl

/-- While idle a word written to the buffer is its four bytes stored at the offset (R66). -/
theorem hostAccess_wrb_idle {s : State} (hw : s.cfg.wf = true) (hb : s.busy = false) {o : Nat} (h4 : o % 4 = 0)
    (h : o < s.cfg.bufBytes) (v : Word) :
    hostAccess (wrb o v) s =
      { s with buf := Memory.writeBytes s.buf o (wordBytes v), resp := some { status := .okay, data := none } } := by
  rw [hostAccess_wrb hw h4 h, hb]
  rfl

theorem hostAccess_rdb_idle {s : State} (hw : s.cfg.wf = true) (hb : s.busy = false) {o : Nat} (h4 : o % 4 = 0)
    (h : o < s.cfg.bufBytes) : hostAccess (rdb o) s = respond .okay (some (readBufWord o s)) s := by
  rw [hostAccess_rdb hw h4 h, hb, if_neg (by simp)]

/-! ### `LOADB` (R87) -/

/-- The string as `LOADB` writes it: whole words, the last padded with zeros. -/
def padded (m : List Byte) : List Byte := m ++ zeros (4 * ((m.length + 3) / 4) - m.length)

theorem padded_length (m : List Byte) : (padded m).length = 4 * ((m.length + 3) / 4) := by
  rw [padded, List.length_append, zeros_length]
  omega

/-- A group of `LOADB`, padded by itself, is four bytes of the padded string. -/
theorem slice_padded (m : List Byte) {i : Nat} (h : i < (m.length + 3) / 4) :
    slice m (4 * i) (4 * i + 4) ++ zeros (4 - (slice m (4 * i) (4 * i + 4)).length) = slice (padded m) (4 * i) (4 * i + 4) := by
  rw [slice_length, slice, slice, padded, List.drop_append, List.take_append, List.length_drop, zeros, zeros,
    List.drop_replicate, List.take_replicate]
  congr 2
  omega

theorem wordBytes_ofNat_leInt {g : List Byte} (h : g.length = 4) : wordBytes (BitVec.ofNat 32 (leInt g)) = g := by
  have hlt := leInt_lt g
  rw [h] at hlt
  rw [wordBytes, BitVec.toNat_ofNat, Nat.mod_eq_of_lt (by omega), ← h, leBytes_leInt]

/-- The four bytes at 4i of a string of whole words. -/
theorem slice_padded_length (m : List Byte) {i : Nat} (h : i < (m.length + 3) / 4) :
    (slice (padded m) (4 * i) (4 * i + 4)).length = 4 := by
  rw [slice_length, padded_length]
  omega

/-- The i-th transaction of `LOADB`: four bytes of the padded string. -/
def loadbGroup (o : Nat) (m : List Byte) (i : Nat) : Access :=
  wrb (o + 4 * i) (BitVec.ofNat 32 (leInt (slice (padded m) (4 * i) (4 * i + 4))))

theorem loadb_eq (o : Nat) (m : List Byte) : loadb o m = (List.range ((m.length + 3) / 4)).map (loadbGroup o m) := by
  refine List.map_congr_left fun i hi => ?_
  rw [slice_padded m (List.mem_range.1 hi), loadbGroup]

theorem afterAccesses_concat (as : List Access) (a : Access) (s : State) :
    afterAccesses (as ++ [a]) s = hostAccess a (afterAccesses as s) := by
  rw [afterAccesses, List.foldl_append, List.foldl_cons, List.foldl_nil, ← afterAccesses]

/-- The first n groups of `LOADB` leave the first 4n bytes of the padded string in the buffer and change no register. -/
theorem afterAccesses_groups {s : State} {o : Nat} {m : List Byte} (hw : s.cfg.wf = true) (hb : s.busy = false) (h4 : o % 4 = 0)
    (h : o + m.length ≤ s.cfg.bufBytes) {n : Nat} (hn : n ≤ (m.length + 3) / 4) :
    ∃ r, afterAccesses ((List.range n).map (loadbGroup o m)) s =
      { s with buf := Memory.writeBytes s.buf o ((padded m).take (4 * n)), resp := r } := by
  induction n with
  | zero => exact ⟨s.resp, by simp [afterAccesses, Memory.writeBytes]⟩
  | succ n ih =>
    obtain ⟨r, hr⟩ := ih (by omega)
    have hl : ((padded m).take (4 * n)).length = 4 * n := by rw [List.length_take, padded_length]; omega
    have hlast : o + 4 * n < s.cfg.bufBytes := by omega
    refine ⟨some { status := .okay, data := none }, ?_⟩
    rw [List.range_succ, List.map_append, List.map_singleton, afterAccesses_concat, hr, loadbGroup,
      hostAccess_wrb_idle (by exact hw) (by exact hb) (by omega) (by exact hlast),
      wordBytes_ofNat_leInt (slice_padded_length m (by omega)), Nat.mul_succ, List.take_add, writeBytes_append, hl, slice,
      Nat.add_sub_cancel_left]

theorem afterAccesses_loadb {s : State} {o : Nat} {m : List Byte} (hw : s.cfg.wf = true) (hb : s.busy = false) (h4 : o % 4 = 0)
    (h : o + m.length ≤ s.cfg.bufBytes) :
    ∃ r, afterAccesses (loadb o m) s = { s with buf := Memory.writeBytes s.buf o (padded m), resp := r } := by
  obtain ⟨r, hr⟩ := afterAccesses_groups (m := m) hw hb h4 h le_rfl
  exact ⟨r, by rw [loadb_eq, hr, ← padded_length, List.take_length]⟩

/-! ### STATUS -/

theorem statusWord_flags (s : State) :
    (statusWord s).getLsbD 0 = s.busy ∧ (statusWord s).getLsbD 1 = s.done ∧ (statusWord s).getLsbD 2 = s.err ∧
      (statusWord s).getLsbD 3 = s.wdrop := by
  simp only [statusWord, BitVec.getLsbD_append]
  simp

/-- The bits of STATUS from 4 up, by the parts the word is put together from. -/
theorem statusWord_parts (s : State) :
    (statusWord s).extractLsb' 4 4 = 0#4 ∧ (statusWord s).extractLsb' 8 8 = s.errCode ∧
      (statusWord s).extractLsb' 16 16 = 0#16 := by
  simp (disch := decide) only [statusWord, BitVec.extractLsb'_append_eq_of_le, BitVec.extractLsb'_append_eq_of_add_le]
  simp

theorem errCode_of_error {s : State} {e : ErrCode} (h : s.error = some e) : s.errCode = e.code := by
  simp [State.errCode, h]

theorem errCode_of_no_error {s : State} (h : s.error = none) : s.errCode = 0 := by
  simp [State.errCode, h]

theorem ite_false_eq_and_not (c b : Bool) : (if c then false else b) = (b && !c) := by
  cases c <;> simp

/-! ### `irq` -/

theorem irq_of_done_eq_false {s : State} (h : s.done = false) : s.irq = false := by
  simp [State.irq, h]

theorem irq_of_irqEn_eq_false {s : State} (h : s.irqEn = false) : s.irq = false := by
  simp [State.irq, h]

/-! ### The obligations -/

/-- Settles O8: a plain store is the register's own field, a read outside R47 the register's value, and a store is read back. -/
theorem registerReadback : Obligations.RegisterReadback := by
  refine ⟨fun s v hb => ?_, fun s => ?_, fun s hb => ?_, fun s r v hb hr => ?_⟩
  · simp only [hostAccess_wr_idle hb]
    exact ⟨rfl, rfl, rfl, rfl, rfl, rfl, fun _ => rfl, fun _ => rfl, fun _ => rfl, fun _ => rfl⟩
  · have current {r : Reg} (h : drawnWhileBusy (.reg r) = false) := resp_rd_current h s
    exact ⟨current rfl, current rfl, current rfl, current rfl, current rfl, current rfl, current rfl,
      fun i => current (r := .key i) rfl, fun i => current (r := .nonce i) rfl⟩
  · exact ⟨fun i => resp_rd_idle hb (.tag i), fun i => resp_rd_idle hb (.pkey i), fun i => resp_rd_idle hb (.state i)⟩
  · rw [hostAccess_wr_idle hb]
    have hidle : (respond .okay none (writeReg r v s)).busy = false := (writeReg_plain_busy hr v s).trans hb
    refine ⟨?_, fun q hq => ?_, writeReg_plain_byteAt hr v s⟩
    · rw [resp_rd_idle hidle, readReg_respond, readReg_writeReg_same hr]
    · rw [readReg_respond, readReg_writeReg_of_ne hq hr]

/-- Settles O9: the write stores the word's four bytes, so what is read back is their little-endian number. -/
theorem bufferWordReadback : Obligations.BufferWordReadback := by
  intro s o v hw hb h4 ho
  rw [hostAccess_wrb_idle hw hb h4 ho]
  refine ⟨fun k hk => ?_, fun a ha => ?_, fun q => readReg_buf_resp q s _ _, ?_, ?_⟩
  · have hbyte := wordBytes_getElem? v hk
    rw [List.getElem?_eq_getElem (by simpa using hk), Option.some_inj] at hbyte
    exact (byteAt_writeBytes_inside s.buf o _).trans hbyte
  · exact byteAt_writeBytes_outside s.buf o _ (by rwa [wordBytes_length])
  · rw [hostAccess_rdb_idle (by exact hw) (by exact hb) h4 (by exact ho), respond_resp]
    exact congrArg (fun w : Word => some (Response.mk .okay (some w))) (readBufWord_writeBufWord o v s)
  · rw [hostAccess_rdb_idle hw hb h4 ho]
    rfl

/-- Settles O18: the drawn and the plain read of a register, and the drawn read of a buffer word. -/
theorem busyReadsDrawn : Obligations.BusyReadsDrawn := by
  refine ⟨fun s r hb hr => hostAccess_rd_drawn hb ((drawnWhileBusy_reg r).trans hr), fun s o hw hb h4 ho => ?_,
    fun s r _ hr => hostAccess_rd_current ((drawnWhileBusy_reg r).trans hr) s⟩
  rw [hostAccess_rdb hw h4 ho, if_pos hb]

/-- Settles O21: the transactions of `LOADB` store the padded string. -/
theorem loadbPlacesString : Obligations.LoadbPlacesString := by
  intro s o m hw hb h4 h
  obtain ⟨r, hr⟩ := afterAccesses_loadb hw hb h4 h
  rw [hr]
  have inside {k : Nat} (hk : k < (padded m).length) := byteAt_writeBytes_inside s.buf o hk
  have hlen := padded_length m
  refine ⟨fun k hk => ?_, fun k hk hk' => ?_, fun a ha => ?_, fun q => readReg_buf_resp q s _ _⟩
  · exact (inside (by omega)).trans (List.getElem_append_left hk)
  · refine (inside (by omega)).trans ?_
    simp [padded, zeros, List.getElem_append_right hk]
  · exact byteAt_writeBytes_outside s.buf o _ (by omega)

/-- Settles O11: the STATUS word taken apart, and the code of each error. -/
theorem statusWordFields : Obligations.StatusWordFields := by
  refine ⟨fun s => ?_, rfl⟩
  obtain ⟨hbusy, hdone, herr, hwdrop⟩ := statusWord_flags s
  obtain ⟨hlow, hcode, hhigh⟩ := statusWord_parts s
  exact ⟨hbusy, hdone, herr, hwdrop, hlow, hcode, hhigh, rfl, errCode_of_no_error, errCode_of_error, errCode_of_error,
    errCode_of_error, errCode_of_error, errCode_of_error, by rw [hostAccess_rd_status, respond_resp]⟩

/-- Settles O12: the model's write of STATUS, each bit a conditional. -/
theorem statusWriteOneToClear : Obligations.StatusWriteOneToClear := by
  intro s v
  rw [hostAccess_wr_status, ite_false_eq_and_not, ite_false_eq_and_not]
  rfl

/-- Settles O16: the larger of the two starts is a shared offset. -/
theorem overlapIsSharedByte : Obligations.OverlapIsSharedByte := by
  intro r t
  rw [Region.overlaps_iff]
  constructor
  · intro h
    exact ⟨max r.off t.off, by omega, by omega⟩
  · rintro ⟨a, hr, ht⟩
    omega

/-- Settles O48: the two writes clear a bit of the conjunction `irq`, an accepted issue clears DONE. -/
theorem interruptCleared : Obligations.InterruptCleared := by
  refine ⟨fun s v hv => irq_of_done_eq_false ?_, fun s v hv => irq_of_irqEn_eq_false ?_,
    fun s v hb hv => irq_of_done_eq_false ?_⟩
  · rw [hostAccess_wr_status, respond_done, writeStatus_done, hv, Bool.not_true, Bool.and_false]
  · rw [hostAccess_wr_ctrl, respond_irqEn, writeCtrl_irqEn, hv]
  · obtain ⟨i, _, hi⟩ := issue_accepted hv
    rw [hostAccess_wr_idle hb, writeReg, hi, respond_done]

end Sys2Proof.Proofs
end

section
/-! The invariant (10_state.md, 20_memory.md, 60_exceptions.md, 70_reset_and_hazards.md): what each input keeps of it, and the
obligations on reset values and the invariant. -/

namespace Sys2Proof.Proofs

open Sys2Proof Sys2Proof.Machine Sys2Proof.Claims

/-! ### What an accepted command may write -/

/-- The destination region of an accepted command that writes it lies in the buffer (R163, R164). -/
theorem dstFits_of_validate {i : Instr} {s : State} (h : validate i s = none) (hw : writesDst i = true) : DstFits s := by
  obtain ⟨_, hfits, _⟩ := (validate_eq_none i s).1 h
  refine hfits (dstRegion s) ?_
  cases i with
  | stream | aeadEnc | aeadDec => simp [regions]
  | _ => cases hw

/-- The validation of a command reports only codes the block raises (R160, R163). -/
theorem validate_raised {i : Instr} {s : State} {e : ErrCode} (h : validate i s = some e) : e.raised = true := by
  unfold validate at h
  split_ifs at h <;> cases h <;> rfl

theorem validateWord_raised {v : Word} {s : State} {e : ErrCode} (h : validateWord v s = some e) : e.raised = true := by
  cases hd : decode v with
  | ok i => exact validate_raised ((validateWord_of_decode hd s).symm.trans h)
  | error r =>
    rw [validateWord_illegal (by simp [hd])] at h
    cases h
    rfl

/-! ### The invariant of an idle and of a busy state -/

/-- Idle and out of reset, the invariant speaks of the parameters, the buffer and the error code alone. -/
theorem inv_of_idle {t : State} (hc : t.cfg.wf = true) (hwf : Memory.wf t.buf) (hin : Memory.within t.cfg.bufBytes t.buf)
    (hp : t.pending = none) (he : ∀ e, t.error = some e → e.raised = true) (hr : t.inReset = false) : t.Inv where
  cfgWf := hc
  bufWf := hwf
  bufWithin := hin
  pendingIsCmd := by simp [hp]
  pendingValid := by simp [hp]
  busyReport := by simp [State.busy, hp]
  errorRaised := he
  heldInReset := by simp [hr]

/-- A command just accepted, out of reset: the report is clear, CMD decodes to it and its checks pass. -/
theorem inv_of_pending {t : State} {i : Instr} (hc : t.cfg.wf = true) (hwf : Memory.wf t.buf)
    (hin : Memory.within t.cfg.bufBytes t.buf) (hp : t.pending = some i) (hcmd : decode t.cmd = .ok i)
    (hv : validate i t = none) (hd : t.done = false) (he : t.error = none) (hr : t.inReset = false) : t.Inv where
  cfgWf := hc
  bufWf := hwf
  bufWithin := hin
  pendingIsCmd := by simp [hp, hcmd]
  pendingValid := by simp [hp, hv]
  busyReport := fun _ => ⟨hd, he⟩
  errorRaised := by simp [he]
  heldInReset := by simp [hr]

theorem busy_of_pending {s : State} {i : Instr} (h : s.pending = some i) : s.busy = true := by
  simp [State.busy, h]

theorem pending_of_busy {s : State} (h : s.busy = true) : ∃ i, s.pending = some i :=
  Option.isSome_iff_exists.1 h

theorem pending_of_not_busy {s : State} (h : s.busy = false) : s.pending = none :=
  Option.isNone_iff_eq_none.1 (Option.isSome_eq_false_iff.1 h)

/-! ### What each input keeps of the invariant -/

section
variable {s : State} (hs : s.Inv)
include hs

/-- The coming inputs, the response and the count of draws are no part of the invariant. -/
theorem inv_own_fields (l : List Input) (r : Option Response) (n : Nat) :
    ({ s with inputs := l, resp := r, draws := n } : State).Inv where
  cfgWf := hs.cfgWf
  bufWf := hs.bufWf
  bufWithin := hs.bufWithin
  pendingIsCmd := hs.pendingIsCmd
  pendingValid := fun i hi => (validate_congr rfl rfl rfl rfl rfl rfl rfl).trans (hs.pendingValid i hi)
  busyReport := hs.busyReport
  errorRaised := hs.errorRaised
  heldInReset := fun hr => by
    cases hs.heldInReset hr
    constructor <;> assumption

theorem inv_setInputs (l : List Input) : (setInputs l s).Inv := inv_own_fields hs l s.resp s.draws

theorem inv_respond (b : BusStatus) (d : Option Word) : (respond b d s).Inv :=
  inv_own_fields hs s.inputs (some { status := b, data := d }) s.draws

theorem not_inReset_of_pending {i : Instr} (hp : s.pending = some i) : s.inReset = false := by
  by_contra hr
  have hreset := (hs.heldInReset (by simpa using hr)).pending
  simp [hp] at hreset

/-- The completion of the pending command, whose checks pass, writes inside the buffer and leaves the block idle. -/
theorem exec_keeps_inv {i : Instr} {t : State} (hp : s.pending = some i) (h : exec i s = .next t) : t.Inv := by
  have hv := hs.pendingValid i hp
  rcases exec_cases i s with ⟨e, he, _⟩ | ⟨_, x, p, g, b, hx, hkeep, hwrite⟩
  · simp [hv] at he
  · rw [hx] at h
    cases h
    have hb : Memory.wf b ∧ Memory.within s.cfg.bufBytes b := by
      cases hd : writesDst i with
      | false => exact hkeep hd ▸ ⟨hs.bufWf, hs.bufWithin⟩
      | true =>
        obtain ⟨m, hm, rfl⟩ := hwrite hd
        have hfits := dstFits_of_validate hv hd
        exact ⟨wf_writeBytes hs.bufWf _ _, within_writeBytes hs.bufWithin _ _ (by omega)⟩
    have hr := not_inReset_of_pending hs hp
    exact inv_of_idle hs.cfgWf hb.1 hb.2 rfl hs.errorRaised hr

/-- A register write while idle, the issue of a command among them. -/
theorem writeReg_keeps_inv (hb : s.busy = false) (hr : s.inReset = false) (r : Reg) (v : Word) : (writeReg r v s).Inv := by
  have hp := pending_of_not_busy hb
  cases r with
  | cmd =>
    rw [writeReg]
    rcases issue_cases v s with ⟨e, he, hi⟩ | ⟨i, hd, hv, hi⟩ <;> rw [hi]
    · refine inv_of_idle hs.cfgWf hs.bufWf hs.bufWithin rfl (fun e' he' => ?_) hr
      cases he'
      exact validateWord_raised he
    · exact inv_of_pending hs.cfgWf hs.bufWf hs.bufWithin rfl hd ((validate_congr rfl rfl rfl rfl rfl rfl rfl).trans hv) rfl
        rfl hr
  | status =>
    refine inv_of_idle hs.cfgWf hs.bufWf hs.bufWithin hp (fun e he => hs.errorRaised e ?_) hr
    rw [writeReg, writeStatus_error] at he
    split_ifs at he
    exact he
  | _ => exact inv_of_idle hs.cfgWf hs.bufWf hs.bufWithin hp hs.errorRaised hr

/-- A write that takes effect while idle: a register, or four bytes of one word inside the buffer. -/
theorem writeLocation_keeps_inv (hb : s.busy = false) (hr : s.inReset = false) {off : Nat} (h4 : off % 4 = 0) (v : Word) :
    (writeLocation (locate s.cfg.bufBytes off) v s).Inv := by
  cases hl : locate s.cfg.bufBytes off with
  | reg r => exact writeReg_keeps_inv hs hb hr r v
  | unmapped => exact hs
  | buffer o =>
    obtain ⟨ho, hoff⟩ := lt_of_locate_buffer hl
    have hword := word_within hs.cfgWf (show o % 4 = 0 by omega) ho
    exact inv_of_idle hs.cfgWf (wf_writeBytes hs.bufWf _ _)
      (within_writeBytes hs.bufWithin _ _ (by rwa [wordBytes_length])) (pending_of_not_busy hb) hs.errorRaised hr

theorem hostAccess_keeps_inv (hr : s.inReset = false) (a : Access) : (hostAccess a s).Inv := by
  cases hb : s.busy with
  | true =>
    obtain ⟨i, hp⟩ := pending_of_busy hb
    obtain ⟨hdone, herr⟩ := hs.busyReport hb
    obtain ⟨q, d, e, w, r, n, h, hd, he⟩ := hostAccess_while_busy hb a
    rw [h]
    exact inv_of_pending hs.cfgWf hs.bufWf hs.bufWithin hp (hs.pendingIsCmd i hp)
      ((validate_congr rfl rfl rfl rfl rfl rfl rfl).trans (hs.pendingValid i hp)) (hd hdone) (he herr) hr
  | false =>
    rcases hostAccess_cases a s with ⟨_, d, h⟩ | ⟨_, hb', _⟩ | ⟨_, w, h⟩ | ⟨_, hb', _⟩ | ⟨he, off, width, en, v, rfl, _, h⟩
    · exact h ▸ inv_respond hs _ _
    · simp [hb] at hb'
    · exact h ▸ inv_respond hs _ _
    · simp [hb] at hb'
    · obtain ⟨_, _, h4⟩ := write_of_no_busError he
      exact h ▸ inv_respond (writeLocation_keeps_inv hs hb hr h4 v) _ _

end

/-! ### Reset -/

theorem assertReset_registersReset (s : State) : (assertReset s).RegistersReset := by
  constructor <;> rfl

/-- What a reset leaves in the buffer: the buffer as it was, or that with bytes of the abandoned command's destination written. -/
theorem bufAfterReset_cases (s : State) :
    bufAfterReset s = s.buf ∨
    ∃ i m, s.pending = some i ∧ writesDst i = true ∧ m.length = s.len.toNat ∧
      bufAfterReset s = Memory.writeBytes s.buf s.dst.toNat m := by
  cases hp : s.pending with
  | none => exact .inl (by rw [bufAfterReset, hp])
  | some i =>
    cases hd : writesDst i with
    | false => exact .inl (by simp [bufAfterReset, hp, hd])
    | true =>
      have hbuf : bufAfterReset s = Memory.writeBytes s.buf s.dst.toNat
          ((List.range s.len.toNat).map fun k => Config.abandonedByte s.draws (s.dst.toNat + k)) := by
        simp [bufAfterReset, hp, hd, dstRegion]
      exact .inr ⟨i, _, rfl, hd, by simp, hbuf⟩

theorem assertReset_keeps_inv {s : State} (hs : s.Inv) : (assertReset s).Inv := by
  have hb : Memory.wf (bufAfterReset s) ∧ Memory.within s.cfg.bufBytes (bufAfterReset s) := by
    rcases bufAfterReset_cases s with h | ⟨i, m, hp, hd, hm, h⟩ <;> rw [h]
    · exact ⟨hs.bufWf, hs.bufWithin⟩
    · have hfits := dstFits_of_validate (hs.pendingValid i hp) hd
      exact ⟨wf_writeBytes hs.bufWf _ _, within_writeBytes hs.bufWithin _ _ (by omega)⟩
  exact {
    cfgWf := hs.cfgWf
    bufWf := hb.1
    bufWithin := hb.2
    pendingIsCmd := nofun
    pendingValid := nofun
    busyReport := nofun
    errorRaised := nofun
    heldInReset := fun _ => assertReset_registersReset s }

theorem releaseReset_keeps_inv {s : State} (hs : s.Inv) : (releaseReset s).Inv where
  cfgWf := hs.cfgWf
  bufWf := hs.bufWf
  bufWithin := hs.bufWithin
  pendingIsCmd := hs.pendingIsCmd
  pendingValid := fun i hi => (validate_congr rfl rfl rfl rfl rfl rfl rfl).trans (hs.pendingValid i hi)
  busyReport := hs.busyReport
  errorRaised := hs.errorRaised
  heldInReset := nofun

theorem step_keeps_inv {s t : State} (hs : s.Inv) (h : step s = .next t) : t.Inv := by
  rcases step_cases h with ⟨_, ⟨i, hp, he⟩ | ⟨_, rfl⟩⟩ | ⟨a, rest, _, hr, rfl⟩ | ⟨rest, _, rfl⟩ | ⟨rest, _, rfl⟩
  · exact exec_keeps_inv (inv_setInputs hs _) (by exact hp) he
  · exact inv_setInputs hs _
  · exact hostAccess_keeps_inv (inv_setInputs hs rest) (by exact hr) a
  · exact assertReset_keeps_inv (inv_setInputs hs rest)
  · exact releaseReset_keeps_inv (inv_setInputs hs rest)

theorem reset_registersReset : State.reset.RegistersReset := by
  constructor <;> rfl

/-- A byte that the abandoned command's destination does not hold is as it was (R202). -/
theorem assertReset_byteAt {s : State} {a : Nat}
    (h : ∀ i, s.pending = some i → writesDst i = true → a < s.dst.toNat ∨ s.dst.toNat + s.len.toNat ≤ a) :
    (assertReset s).byteAt a = s.byteAt a := by
  rw [State.byteAt, State.byteAt, assertReset_buf]
  rcases bufAfterReset_cases s with hk | ⟨i, m, hp, hd, hm, hw⟩
  · rw [hk]
  · rw [hw, byteAt_writeBytes_outside _ _ _ (by simpa [hm] using h i hp hd)]

theorem writesDst_iff (i : Instr) : writesDst i = true ↔ i = .stream ∨ i = .aeadEnc ∨ i = .aeadDec := by
  cases i <;> simp [writesDst]

/-! ### The obligations -/

/-- Settles O57: each of the moves a step can make keeps the invariant. -/
theorem stepKeepsInv : Obligations.StepKeepsInv := fun _ _ => step_keeps_inv

/-- Settles O56: idle with an empty buffer and no error, of the default size. -/
theorem resetMeetsInv : Obligations.ResetMeetsInv :=
  inv_of_idle rfl List.Pairwise.nil nofun rfl nofun rfl

/-- Settles O51: the reset state field by field. -/
theorem resetValues : Obligations.ResetValues := ⟨reset_registersReset, rfl, rfl, rfl, rfl, rfl⟩

/-- Settles O52: the assertion writes only what `bufAfterReset` says, and an edge at the head of the inputs is the step. -/
theorem resetAbandonsCommand : Obligations.ResetAbandonsCommand := by
  refine ⟨fun s => ⟨assertReset_registersReset s, rfl, rfl, rfl, rfl, fun a h => ?_, rfl, rfl⟩, fun s rest hin => step_cons hin,
    fun s rest hin => step_cons hin⟩
  exact assertReset_byteAt fun i hp hd => h i hp ((writesDst_iff i).1 hd)

end Sys2Proof.Proofs
end

section
/-! The engine (10_state.md R44, R45, 60_exceptions.md R167, R168): one command as its checks and its effect, the step that runs it, what
sets and clears BUSY, and the obligations on frames, steps and completion. -/

namespace Sys2Proof.Proofs

open Sys2Proof Sys2Proof.Machine Sys2Proof.Claims

/-! ### A command as its effect -/

/-- What a command does where its checks pass, before the completion. -/
def effectOf : Instr → State → State
  | .qr a b c d => effectQr a b c d
  | .block => effectBlock
  | .stream => effectStream
  | .poly => effectPoly
  | .keygen => effectKeygen
  | .aeadEnc => effectAeadEnc
  | .aeadDec => effectAeadDec

theorem exec_eq_runCommand (i : Instr) (s : State) : exec i s = runCommand i (effectOf i) s := by
  cases i <;> rfl

theorem exec_of_accepted {i : Instr} {s : State} (h : validate i s = none) : exec i s = .next (complete (effectOf i s)) := by
  rw [exec_eq_runCommand, runCommand_accepted h]

/-- A command answers a next state: its error report, or the completion of its effect. -/
theorem eq_of_exec {i : Instr} {s t : State} (h : exec i s = .next t) :
    (∃ e, validate i s = some e ∧ t = reportError e s) ∨ (validate i s = none ∧ t = complete (effectOf i s)) := by
  cases hv : validate i s with
  | some e =>
    rw [exec_reports hv] at h
    cases h
    exact .inl ⟨e, rfl, rfl⟩
  | none =>
    rw [exec_of_accepted hv] at h
    cases h
    exact .inr ⟨rfl, rfl⟩

theorem exec_answers (i : Instr) (s : State) : ∃ t, exec i s = .next t := by
  rcases exec_cases i s with ⟨e, _, h⟩ | ⟨_, x, p, g, b, h, _⟩ <;> exact ⟨_, h⟩

/-- An accepted command ends idle with DONE = 1, the error report, CMD and `rst_n` as they were (R45). -/
theorem exec_completes {i : Instr} {s : State} (h : validate i s = none) :
    ∃ t, exec i s = .next t ∧ t.busy = false ∧ t.done = true ∧ t.error = s.error ∧ t.cmd = s.cmd ∧ t.inReset = s.inReset := by
  rcases exec_cases i s with ⟨e, he, _⟩ | ⟨_, x, p, g, b, hx, _⟩
  · simp [h] at he
  · exact ⟨_, hx, rfl, rfl, rfl, rfl, rfl⟩

/-! ### The frame of the effects -/

theorem effectOf_error (i : Instr) (s : State) : (effectOf i s).error = s.error := by
  cases i <;> rfl

theorem effectOf_state {i : Instr} (hb : i ≠ .block) (hq : ∀ a b c d, i ≠ .qr a b c d) (s : State) :
    (effectOf i s).state = s.state := by
  cases i with
  | qr a b c d => exact absurd rfl (hq a b c d)
  | block => exact absurd rfl hb
  | _ => rfl

theorem effectOf_qr_state {a b c d : BitVec 4} {k : Fin 16} (ha : k ≠ a.toFin) (hb : k ≠ b.toFin) (hc : k ≠ c.toFin)
    (hd : k ≠ d.toFin) (s : State) : (effectOf (.qr a b c d) s).state[k] = s.state[k] :=
  withQuad_getElem_of_ne s.state ha hb hc hd _

theorem effectOf_pkey {i : Instr} (h : i ≠ .keygen) (s : State) : (effectOf i s).pkey = s.pkey := by
  cases i with
  | keygen => exact absurd rfl h
  | _ => rfl

theorem effectOf_tag {i : Instr} (hp : i ≠ .poly) (he : i ≠ .aeadEnc) (hd : i ≠ .aeadDec) (s : State) :
    (effectOf i s).tag = s.tag := by
  cases i with
  | poly => exact absurd rfl hp
  | aeadEnc => exact absurd rfl he
  | aeadDec => exact absurd rfl hd
  | _ => rfl

/-- The bytes a command leaves alone: all of them unless it writes the destination region, else those outside it. -/
theorem exec_byteAt {i : Instr} {s t : State} (h : exec i s = .next t) {a : Nat}
    (ha : writesDst i = true → a < s.dst.toNat ∨ s.dst.toNat + s.len.toNat ≤ a) : t.byteAt a = s.byteAt a := by
  rcases exec_cases i s with ⟨e, _, he⟩ | ⟨_, x, p, g, b, he, hkeep, hwrite⟩
  · rw [he] at h
    cases h
    rfl
  · rw [he] at h
    cases h
    rw [State.byteAt, State.byteAt, complete_buf]
    cases hd : writesDst i with
    | false => rw [hkeep hd]
    | true =>
      obtain ⟨m, hm, rfl⟩ := hwrite hd
      exact byteAt_writeBytes_outside _ _ _ (by simpa [hm] using ha hd)

/-! ### BUSY -/

theorem validateWord_setInputs (v : Word) (l : List Input) (s : State) : validateWord v (setInputs l s) = validateWord v s := by
  cases hd : decode v with
  | error r => simp [validateWord, hd]
  | ok i =>
    rw [validateWord_of_decode hd, validateWord_of_decode hd]
    exact validate_congr rfl rfl rfl rfl rfl rfl rfl

theorem writeLocation_busy {l : Location} (h : l ≠ .reg .cmd) (v : Word) (s : State) : (writeLocation l v s).busy = s.busy := by
  cases l with
  | buffer o => rfl
  | unmapped => rfl
  | reg r =>
    cases r with
    | cmd => exact absurd rfl h
    | _ => rfl

/-- An issue that leaves a command pending was accepted. -/
theorem validateWord_of_issue_busy {v : Word} {s : State} (h : (issue v s).busy = true) :
    validateWord v s = none ∧ (issue v s).cmd = v := by
  cases hv : validateWord v s with
  | some e =>
    rw [issue_refused hv] at h
    cases h
  | none =>
    obtain ⟨i, _, hi⟩ := issue_accepted hv
    exact ⟨rfl, by rw [hi]⟩

theorem hostAccess_busy_of_busy {s : State} (hb : s.busy = true) (a : Access) : (hostAccess a s).busy = true := by
  obtain ⟨q, d, e, w, r, n, h, _⟩ := hostAccess_while_busy hb a
  rw [h]
  exact hb

/-- The host sets BUSY by a write of CMD that validation accepts, and by nothing else (R28). -/
theorem hostAccess_sets_busy {a : Access} {s : State} (hb : s.busy = false) (h : (hostAccess a s).busy = true) :
    ∃ off v, a = .write off .word 0xF#4 v ∧ off.toNat = 0x010 ∧ validateWord v s = none ∧ (hostAccess a s).cmd = v := by
  rcases hostAccess_cases a s with ⟨_, d, ha⟩ | ⟨_, hb', _⟩ | ⟨_, w, ha⟩ | ⟨_, hb', _⟩ | ⟨he, off, width, en, v, rfl, _, ha⟩
  · rw [ha] at h
    exact absurd (hb.symm.trans h) (by decide)
  · simp [hb] at hb'
  · rw [ha] at h
    exact absurd (hb.symm.trans h) (by decide)
  · simp [hb] at hb'
  · obtain ⟨rfl, rfl, _⟩ := write_of_no_busError he
    by_cases hl : locate s.cfg.bufBytes off.toNat = .reg .cmd
    · rw [ha, hl] at h ⊢
      obtain ⟨hv, hcmd⟩ := validateWord_of_issue_busy (v := v) (s := s) h
      exact ⟨off, v, rfl, offset_of_locate_reg hl, hv, hcmd⟩
    · rw [ha] at h
      exact absurd (((writeLocation_busy hl v s).trans hb).symm.trans h) (by decide)

/-! ### Steps and runs -/

theorem engineStep_answers (s : State) : ∃ t, engineStep s = .next t := by
  cases hp : s.pending with
  | none => exact ⟨s, engineStep_idle hp⟩
  | some i =>
    obtain ⟨t, ht⟩ := exec_answers i s
    exact ⟨t, (engineStep_pending hp).trans ht⟩

theorem step_engine {s : State} {i : Instr} {rest : List Input} (hp : s.pending = some i) (hin : s.inputs = .engine :: rest) :
    step s = exec i (setInputs rest s) := by
  rw [step_cons hin, takeInput, engineStep_pending (s := setInputs rest s) hp]

theorem step_host {s : State} {a : Access} {rest : List Input} (hr : s.inReset = false) (hin : s.inputs = .host a :: rest) :
    step s = .next (hostAccess a (setInputs rest s)) := by
  rw [step_cons hin, takeInput_host_accepted (s := setInputs rest s) hr]

theorem run_one {s t : State} (h : step s = .next t) : Sys2Proof.core.run 1 s = .next t :=
  run_succ_next h

theorem pending_of_withFetchWord {n w : Nat} {i : Instr} (h : decodeTableWord n w = some i) (s : State) :
    (s.withFetchWord n w).pending = some i := by
  cases hd : decode (tableWord n w) with
  | error r => simp [decodeTableWord, hd] at h
  | ok j =>
    obtain rfl : j = i := by simpa [decodeTableWord, hd] using h
    simp [State.withFetchWord, withIssuedWord, hd]

/-- In a state of the invariant the pending command completes without an error. -/
theorem pending_completes {s : State} {i : Instr} (hs : s.Inv) (hp : s.pending = some i) (l : List Input) :
    ∃ t, exec i (setInputs l s) = .next t ∧ t.busy = false ∧ t.done = true ∧ t.error = none := by
  obtain ⟨t, ht, hb, hd, he, _⟩ := exec_completes ((inv_setInputs hs l).pendingValid i hp)
  exact ⟨t, ht, hb, hd, he.trans (hs.busyReport (busy_of_pending hp)).2⟩

/-- Host transactions alone before the engine's turn: the command completes within one step more than there are inputs. -/
theorem completes_within {l : List Input} {s : State} {i : Instr} (hin : s.inputs = l) (hs : s.Inv) (hp : s.pending = some i)
    (ha : .resetAssert ∉ l) (hr : .resetRelease ∉ l) :
    ∃ k t, k ≤ l.length + 1 ∧ Sys2Proof.core.run k s = .next t ∧ t.busy = false ∧ t.done = true ∧ t.error = none := by
  induction l generalizing s with
  | nil =>
    obtain ⟨t, ht, hdone⟩ := pending_completes hs hp s.inputs
    exact ⟨1, t, by simp, run_one (by rw [step_nil hin, engineStep_pending hp]; exact ht), hdone⟩
  | cons e rest ih =>
    obtain ⟨hae, harest⟩ := not_or.1 (mt List.mem_cons.2 ha)
    obtain ⟨hre, hrrest⟩ := not_or.1 (mt List.mem_cons.2 hr)
    cases e with
    | engine =>
      obtain ⟨t, ht, hdone⟩ := pending_completes hs hp rest
      exact ⟨1, t, by simp, run_one ((step_engine hp hin).trans ht), hdone⟩
    | host a =>
      have hstep := step_host (not_inReset_of_pending hs hp) hin
      have hpend : (hostAccess a (setInputs rest s)).pending = some i := by
        obtain ⟨q, d, e, w, r, n, h, _⟩ := hostAccess_while_busy (s := setInputs rest s) (busy_of_pending hp) a
        rw [h]
        exact hp
      obtain ⟨k, t, hk, hrun, hdone⟩ := ih (hostAccess_inputs a _) (step_keeps_inv hs hstep) hpend harest hrrest
      exact ⟨k + 1, t, by simpa using hk, (run_succ_next hstep).trans hrun, hdone⟩
    | resetAssert => exact absurd rfl hae
    | resetRelease => exact absurd rfl hre

/-- While BUSY, host transactions before the other inputs change at most IRQ_EN, the report bits, the response and the draws, and set
no error (R46 to R49). -/
theorem run_host_while_busy {s : State} (hr : s.inReset = false) (hb : s.busy = true) (he : s.error = none) (as : List Access)
    (k : Nat) (l : List Input) :
    ∃ q d w r n, Sys2Proof.core.run (as.length + k) (setInputs (as.map .host ++ l) s) =
      Sys2Proof.core.run k { s with irqEn := q, done := d, error := none, wdrop := w, resp := r, draws := n, inputs := l } := by
  induction as generalizing s with
  | nil => exact ⟨s.irqEn, s.done, s.wdrop, s.resp, s.draws, by simp [setInputs, he]⟩
  | cons a as ih =>
    have hstep := step_host (s := setInputs ((a :: as).map .host ++ l) s) hr rfl
    obtain ⟨q, d, e, w, r, n, h, _, hnone⟩ := hostAccess_while_busy (s := setInputs (as.map .host ++ l) s) hb a
    obtain rfl : e = none := hnone he
    obtain ⟨q', d', w', r', n', hrun⟩ :=
      ih (s := { s with irqEn := q, done := d, error := none, wdrop := w, resp := r, draws := n }) hr hb rfl
    refine ⟨q', d', w', r', n', ?_⟩
    rw [List.length_cons, Nat.succ_add, run_succ_next (hstep.trans (congrArg _ h))]
    exact hrun

/-! ### The obligations -/

/-- Settles O45: a refused issue and a refused command are the report alone; an accepted command is its completion. -/
theorem refusedWritesNoOutput : Obligations.RefusedWritesNoOutput := by
  refine ⟨fun v s e he => ?_, fun i s => ?_⟩
  · rw [issue_refused he]
    exact ⟨rfl, rfl, rfl, rfl, rfl, rfl, fun _ => rfl⟩
  · obtain ⟨t, ht⟩ := exec_answers i s
    obtain ⟨_, hdone, hbusy⟩ := exec_finishes ht
    refine ⟨t, ht, hbusy, hdone, fun e he => ?_, fun hv => ?_⟩
    · obtain rfl : reportError e s = t := by simpa [exec_reports he] using ht
      exact ⟨rfl, rfl, rfl, rfl, fun _ => rfl⟩
    · obtain ⟨u, hu, _, _, herr, _⟩ := exec_completes hv
      obtain rfl : u = t := by simpa [hu] using ht
      exact herr

/-- Settles O46: the report touches status alone, and each effect writes its own outputs. -/
theorem commandFrame : Obligations.CommandFrame := by
  intro i s t h
  have hbyte {a : Nat} := exec_byteAt h (a := a)
  have hdst := writesDst_iff i
  refine ⟨?_, fun hb hq => ?_, ?_, fun hk => ?_, fun hp he hd => ?_, fun hs he hd a => hbyte (by simp [hdst, hs, he, hd]),
    fun a ha => hbyte fun _ => ha⟩
  · rcases exec_cases i s with ⟨e, _, hx⟩ | ⟨_, x, p, g, b, hx, _⟩ <;>
    · rw [hx] at h
      cases h
      exact ⟨rfl, rfl, rfl, rfl, rfl, rfl, rfl, rfl, rfl, rfl, rfl, rfl, rfl, rfl, rfl, rfl⟩
  · rcases eq_of_exec h with ⟨e, _, rfl⟩ | ⟨_, rfl⟩
    · rfl
    · exact effectOf_state hb hq s
  · rintro a b c d rfl k ha hb hc hd
    rcases eq_of_exec h with ⟨e, _, rfl⟩ | ⟨_, rfl⟩
    · rfl
    · exact effectOf_qr_state ha hb hc hd s
  · rcases eq_of_exec h with ⟨e, _, rfl⟩ | ⟨_, rfl⟩
    · rfl
    · exact effectOf_pkey hk s
  · rcases eq_of_exec h with ⟨e, _, rfl⟩ | ⟨_, rfl⟩
    · rfl
    · exact effectOf_tag hp he hd s

/-- Settles O50: of the moves of a step, an accepted write of CMD sets BUSY, and the completion or a reset clears it. -/
theorem busyTransitions : Obligations.BusyTransitions := by
  refine ⟨fun s v hb hv => ?_, fun i s t h => (exec_finishes h).2.2, fun s t h hs ht => ?_, fun s t h hs ht => ?_⟩
  · obtain ⟨i, _, hi⟩ := issue_accepted hv
    rw [hostAccess_wr_idle hb, writeReg, hi]
    rfl
  · rcases step_cases h with ⟨_, ⟨i, hp, _⟩ | ⟨_, rfl⟩⟩ | ⟨a, rest, hin, _, rfl⟩ | ⟨rest, _, rfl⟩ | ⟨rest, _, rfl⟩
    · simp [busy_of_pending hp] at hs
    · exact absurd (hs.symm.trans ht) (by decide)
    · obtain ⟨off, v, rfl, hoff, hv, hcmd⟩ := hostAccess_sets_busy (s := setInputs rest s) hs ht
      exact ⟨off, v, rest, hin, hoff, (validateWord_setInputs v rest s).symm.trans hv, hcmd⟩
    · cases ht
    · exact absurd (hs.symm.trans ht) (by decide)
  · rcases step_cases h with ⟨hin, ⟨i, hp, he⟩ | ⟨hp, _⟩⟩ | ⟨a, rest, _, _, rfl⟩ | ⟨rest, hin, _⟩ | ⟨rest, _, rfl⟩
    · exact .inl ⟨i, hp, (exec_finishes he).2.1, hin⟩
    · simp [State.busy, hp] at hs
    · simp [hostAccess_busy_of_busy (s := setInputs rest s) hs a] at ht
    · exact .inr ⟨rest, hin⟩
    · exact absurd (hs.symm.trans ht) (by decide)

/-- Settles O54: the engine's turn by the step laws, with the inputs taken or none left. -/
theorem stepRunsPendingCommand : Obligations.StepRunsPendingCommand := by
  refine ⟨fun s i hp hin => ?_, fun s i rest hp hin => step_engine hp hin, fun s hp hin => ?_, fun s rest hp hin => ?_,
    fun s n w i hd => ?_⟩
  · rw [step_nil hin, engineStep_pending hp]
  · rw [step_nil hin, engineStep_idle hp]
  · rw [step_cons hin, takeInput, engineStep_idle (s := setInputs rest s) hp]
    rfl
  · rw [step_nil rfl, engineStep_pending (pending_of_withFetchWord hd s)]

/-- Settles O58: neither run differs from the state in anything the command reads or writes when the engine moves. -/
theorem resultIndependentOfLatency : Obligations.ResultIndependentOfLatency := by
  intro s i as rest hs hp
  have hb := busy_of_pending hp
  have he := (hs.busyReport hb).2
  obtain ⟨x, p, g, b, hexec⟩ := exec_accepted (hs.pendingValid i hp)
  obtain ⟨q, d, w, r, n, hrun⟩ := run_host_while_busy (not_inReset_of_pending hs hp) hb he as 1 (.engine :: rest)
  have hfinish (q d e w r n) := run_one ((step_engine (s := { s with
    irqEn := q, done := d, error := e, wdrop := w, resp := r, draws := n, inputs := .engine :: rest }) hp rfl).trans
      (hexec q d e w r n rest))
  refine ⟨_, _, hfinish s.irqEn s.done s.error s.wdrop s.resp s.draws, hrun.trans (hfinish q d none w r n), ?_⟩
  exact ⟨rfl, rfl, rfl, rfl, rfl, he.symm, rfl, rfl, rfl⟩

/-- Settles O59: by induction on the coming inputs, the host's transactions keeping the command pending. -/
theorem completionIsEventual : Obligations.CompletionIsEventual := fun _ _ hs hp ha hr => completes_within rfl hs hp ha hr

/-- Settles O60: the engine always answers, and of the inputs only a host transaction in reset is refused. -/
theorem onlyResetAccessStops : Obligations.OnlyResetAccessStops := by
  intro s
  cases hin : s.inputs with
  | nil => exact .inl (step_nil hin ▸ engineStep_answers s)
  | cons e rest =>
    rw [step_cons hin]
    cases e with
    | engine => exact .inl (engineStep_answers (setInputs rest s))
    | resetAssert => exact .inl ⟨_, rfl⟩
    | resetRelease => exact .inl ⟨_, rfl⟩
    | host a =>
      cases hr : s.inReset with
      | false => exact .inl ⟨_, takeInput_host_accepted (s := setInputs rest s) hr a⟩
      | true => exact .inr ⟨rfl, ⟨a, rest, rfl⟩, takeInput_host_refused (s := setInputs rest s) hr a⟩

end Sys2Proof.Proofs
end

section
/-! Host programs (30_encoding.md R86, R87): `RUN i` from the issue to the last poll, and the obligation on what a program records. -/

namespace Sys2Proof.Proofs

open Sys2Proof Sys2Proof.Machine Sys2Proof.Claims

/-- `s` with the word `v` of command `i` issued and accepted (R44). -/
def accepted (v : Word) (i : Instr) (s : State) : State := { s with cmd := v, pending := some i, done := false, error := none }

/-- An idle write of CMD that decodes to `i` and passes the checks is the issue of `i`. -/
theorem hostAccess_wr_cmd_accepted {s : State} {v : Word} {i : Instr} (hb : s.busy = false) (hd : decode v = .ok i)
    (hv : validate i s = none) : hostAccess (wr .cmd v) s = respond .okay none (accepted v i s) := by
  obtain ⟨j, hj, hi⟩ := issue_accepted ((validateWord_of_decode hd s).trans hv)
  obtain rfl : i = j := by simpa [hd] using hj
  rw [hostAccess_wr_idle hb, writeReg, hi, accepted]

/-- The command stays valid where only the report, CMD, the response and the inputs differ. -/
theorem validate_accepted {i : Instr} {s : State} (hv : validate i s = none) (v : Word) (l : List Input) (r : Option Response) :
    validate i { accepted v i s with inputs := l, resp := r } = none :=
  (validate_congr rfl rfl rfl rfl rfl rfl rfl).trans hv

/-- The engine's turn while a command is pending is that command. -/
theorem runProgram_engine {b t : State} {i : Instr} (hp : b.pending = some i) (h : exec i b = .next t) (ts : List Turn)
    (p : List HostInstr) (vs : List Word) :
    runProgram (.engine :: ts) { left := p, recorded := vs, block := b } =
      runProgram ts { left := p, recorded := vs, block := t } :=
  runProgram_cons (by simp [Running.turn, Running.input, takeInput, engineStep_pending hp, h]) ts

theorem runProgram_runCmd {s : State} {i : Instr} (hb : s.busy = false) (hr : s.inReset = false) (hv : validate i s = none)
    (ts : List Turn) :
    runProgram (.host :: ts) (.start (runCmd i) s) =
      runProgram ts { left := [.wait], recorded := [], block := respond .okay none (accepted (encode i) i s) } := by
  rw [Running.start, runCmd, runProgram_access hr, command, hostAccess_wr_cmd_accepted hb (decode_encode i) hv]
  rfl

/-- `RUN i`: polls record the STATUS of the busy block until the engine has moved; the next poll is the last (R87). -/
theorem runCmd_waits_and_ends {s : State} {i : Instr} (k : Nat) (hb : s.busy = false) (hr : s.inReset = false)
    (hv : validate i s = none) :
    ∃ w u,
      runProgram (.host :: List.replicate k .host) (.start (runCmd i) s) = .next w ∧
      w.left = [.wait] ∧ w.block.busy = true ∧ w.recorded = List.replicate k (statusWord w.block) ∧
      runProgram (.host :: (List.replicate k .host ++ [.engine, .host])) (.start (runCmd i) s) = .next u ∧
      u.left = [] ∧ u.block.busy = false ∧ u.block.done = true ∧ u.block.error = none ∧ u.block.cmd = encode i ∧
      u.recorded = w.recorded ++ [statusWord u.block] := by
  have polls := runProgram_polls (s := respond .okay none (accepted (encode i) i s)) hr rfl k
  obtain ⟨q, hwait⟩ := polls [] [] []
  obtain ⟨q', hend⟩ := polls [.engine, .host] [] []
  obtain ⟨t, ht, htb, htd, hte, htc, htr⟩ := exec_completes (validate_accepted hv (encode i) s.inputs q')
  have hover : runProgram [.engine, .host]
      { left := [.wait], recorded := List.replicate k (statusWord (accepted (encode i) i s))
        block := { accepted (encode i) i s with inputs := s.inputs, resp := q' } } =
      .next { left := [], recorded := List.replicate k (statusWord (accepted (encode i) i s)) ++ [statusWord t]
              block := respond .okay (some (statusWord t)) t } := by
    rw [runProgram_engine rfl ht, runProgram_wait (htr.trans hr), htb]
    rfl
  rw [List.append_nil, runProgram] at hwait
  exact ⟨_, _, (runProgram_runCmd hb hr hv _).trans hwait, rfl, rfl, rfl, (runProgram_runCmd hb hr hv _).trans (hend.trans hover),
    rfl, htb, htd, hte, htc, rfl⟩

/-! ### What one access of a program records -/

/-- A transaction that answers OKAY with a value is recorded with it. -/
theorem runProgram_read {s t : State} {a : Access} {v : Word} (hr : s.inReset = false)
    (ha : hostAccess a s = respond .okay (some v) t) (p : List HostInstr) (vs : List Word) :
    runProgram [.host] { left := .access a :: p, recorded := vs, block := s } =
      .next { left := p, recorded := vs ++ [v], block := hostAccess a s } := by
  rw [runProgram_access hr, runProgram, ha]
  rfl

theorem runProgram_write {s : State} (hr : s.inReset = false) (off : Nat) (v : Word) (p : List HostInstr) (vs : List Word) :
    runProgram [.host] { left := .access (wrAt off v) :: p, recorded := vs, block := s } =
      .next { left := p, recorded := vs, block := hostAccess (wrAt off v) s } := by
  have hnone : valueRead (hostAccess (wrAt off v) s).resp = none := valueRead_hostWrite (wrAt off v) v s
  rw [runProgram_access hr, runProgram, hnone, Option.toList_none, List.append_nil]

/-! ### The obligation -/

/-- Settles O55: the polls and the engine's turn of `RUN i`, one access of a program, and the issue and completion as two steps. -/
theorem issueThenCompletion : Obligations.IssueThenCompletion := by
  refine ⟨fun s i k hb hr hv => runCmd_waits_and_ends k hb hr hv, fun s p vs hr => ⟨fun r h => ?_, fun r h => ?_,
    fun o hw hb h4 ho => ?_, fun off v => runProgram_write hr off v p vs⟩, fun ts r u h => recorded_prefix ts h,
    fun s v i rest hb hr hin hd hv => ?_⟩
  · exact runProgram_read hr ((hostAccess_rd r s).trans (if_neg (by simp [h]))) p vs
  · exact runProgram_read hr ((hostAccess_rd r s).trans (if_pos h)) p vs
  · exact runProgram_read hr (hostAccess_rdb_idle hw hb h4 ho) p vs
  · have hissue := step_host hr hin
    rw [hostAccess_wr_cmd_accepted (s := setInputs (.engine :: rest) s) hb hd
      ((validate_congr rfl rfl rfl rfl rfl rfl rfl).trans hv)] at hissue
    obtain ⟨t, ht, htb, htd, hte, htc, _⟩ :=
      exec_completes (validate_accepted hv v rest (some { status := .okay, data := none }))
    exact ⟨t, (run_succ_next hissue).trans (run_one ((step_engine rfl rfl).trans ht)), htb, htd, hte, htc, ht⟩

end Sys2Proof.Proofs
end

section
/-! The commands of the ChaCha20 family (40_chacha20.md R105 to R108): what validation answers for each command, the bytes of the stream
function, and the obligations of that family. -/

namespace Sys2Proof.Proofs

open Sys2Proof Sys2Proof.Machine Sys2Proof.Claims

/-! ### What validation answers, command by command (R163) -/

theorem validate_qr_distinct {a b c d : BitVec 4} (h : Distinct4 a b c d) (s : State) : validate (.qr a b c d) s = none := by
  have ha : indexAlias (.qr a b c d) = false := by simpa using mt (indexAlias_qr_iff a b c d).1 (not_not.2 h)
  simp [validate_eq_none, ha, regions, writesDst, readsAad, counterOverflows]

theorem validate_block (s : State) : validate .block s = none := rfl

theorem validate_keygen (s : State) : validate .keygen s = none := rfl

theorem validate_stream (s : State) : validate .stream s =
    if ¬ (SrcFits s ∧ DstFits s) then some .range
    else if SrcDstOverlap s then some .overlap
    else if s.len.toNat > (2 ^ 32 - s.counter.toNat) * 64 then some .counterOverflow
    else none := by
  simp only [validate, regions_any_not_fits_iff, srcDst_check_iff, aadDst_check_iff, counterOverflows_iff, not_and_or, ite_or]
  simp [opcode, indexAlias]

theorem validate_poly (s : State) : validate .poly s = if ¬ SrcFits s then some .range else none := by
  simp only [validate, regions_any_not_fits_iff, srcDst_check_iff, aadDst_check_iff, counterOverflows_iff]
  simp [opcode, indexAlias]

/-- LEN is a word, so the counters from 1 on suffice for every AEAD message (R166). -/
theorem validate_aead {i : Instr} (h : i = .aeadEnc ∨ i = .aeadDec) (s : State) : validate i s =
    if ¬ (SrcFits s ∧ DstFits s ∧ AadFits s) then some .range
    else if SrcDstOverlap s ∨ AadDstOverlap s then some .overlap
    else none := by
  have hlen : ¬ s.len.toNat > (2 ^ 32 - 1) * 64 := by omega
  simp only [validate, regions_any_not_fits_iff, srcDst_check_iff, aadDst_check_iff, counterOverflows_iff, hlen, not_and_or,
    ite_or]
  rcases h with rfl | rfl <;> simp [opcode, indexAlias]

theorem validate_of_streamAccepted {s : State} (h : StreamAccepted s) : validate .stream s = none := by
  obtain ⟨hsrc, hdst, hover, hlen⟩ := h
  rw [validate_stream, if_neg (not_not.2 ⟨hsrc, hdst⟩), if_neg hover, if_neg (by omega)]

/-! ### The bytes of the stream function (R105) -/

theorem streamXor_streamXor (key : List Byte) (ctr : Word) (nonce m : List Byte) :
    streamXor key ctr nonce (streamXor key ctr nonce m) = m := by
  refine List.ext_getElem (by simp) fun k _ _ => ?_
  rw [streamXor_getElem, streamXor_getElem, BitVec.xor_assoc, BitVec.xor_self, BitVec.xor_zero]

/-- The stream function of a string read from the buffer, written back: byte k is source byte k XOR byte k mod 64 of the block at
counter `ctr + k div 64`. -/
theorem byteAt_streamXor_written (m : Memory) (kw : Vector Word 8) (ctr : Word) (nw : Vector Word 3) (src dst : Nat) {n k : Nat}
    (hk : k < n) :
    ∃ b, (wordsToBytes (blockWords kw (ctr + BitVec.ofNat 32 (k / 64)) nw).toList)[k % 64]? = some b ∧
      Memory.byteAt (Memory.writeBytes m dst
        (streamXor (wordsToBytes kw.toList) ctr (wordsToBytes nw.toList) (Memory.readBytes m src n))) (dst + k) =
      Memory.byteAt m (src + k) ^^^ b := by
  have hk64 : k % 64 < 64 := Nat.mod_lt k (by decide)
  rw [← block_wordsToBytes]
  refine ⟨_, List.getElem?_eq_getElem (by rwa [block_length]), ?_⟩
  rw [byteAt_writeBytes_inside _ _ (by simpa using hk), streamXor_getElem, readBytes_getElem]

/-! ### The obligations -/

/-- Settles O22: distinct indices pass the checks, and the effect is the quarter round. -/
theorem qrCompletes : Obligations.QrCompletes := fun s _ _ _ _ h => exec_of_accepted (validate_qr_distinct h s)

/-- Settles O24: equal indices are what the first check finds. -/
theorem qrAliasReported : Obligations.QrAliasReported := fun s _ _ _ _ h => exec_reports (validate_qr_aliased h s)

/-- Settles O25: no check applies to BLOCK. -/
theorem blockCompletes : Obligations.BlockCompletes := fun s => exec_of_accepted (validate_block s)

/-- Settles O27: an accepted STREAM is the completion of its effect. -/
theorem streamCompletes : Obligations.StreamCompletes := fun _ h => exec_of_accepted (validate_of_streamAccepted h)

/-- Settles O28: the bytes of the stream function as written, and the frame of the command. -/
theorem streamBytes : Obligations.StreamBytes := by
  intro s h
  have hx := exec_of_accepted (validate_of_streamAccepted h)
  obtain ⟨_, _, _, hlen⟩ := h
  refine ⟨_, hx, fun k hk => ?_, fun a ha => exec_byteAt hx fun _ => ha⟩
  obtain ⟨b, hb, hbyte⟩ := byteAt_streamXor_written s.buf s.key s.counter s.nonce s.src.toNat s.dst.toNat hk
  exact ⟨b, hb, by omega, hbyte⟩

/-- Settles O29: the branches of validation in their order. -/
theorem streamRefusals : Obligations.StreamRefusals := by
  refine fun s => ⟨fun h => exec_reports ?_, fun hsrc hdst hover => exec_reports ?_,
    fun hsrc hdst hover hlen => exec_reports ?_⟩ <;> rw [validate_stream]
  · exact if_pos h
  · rw [if_neg (not_not.2 ⟨hsrc, hdst⟩), if_pos hover]
  · rw [if_neg (not_not.2 ⟨hsrc, hdst⟩), if_neg hover, if_pos hlen]

/-- Settles O30: bytewise, two XORs with the same block byte cancel. -/
theorem streamXorInvolution : Obligations.StreamXorInvolution := fun key ctr nonce m =>
  ⟨streamXor_length key ctr nonce m, streamXor_streamXor key ctr nonce m⟩

/-- Settles O31: the last block, j = (LEN − 1) div 64, has the largest counter. -/
theorem streamCounterLimit : Obligations.StreamCounterLimit := by
  intro s
  rw [counterOverflows, decide_eq_false_iff_not]
  refine ⟨fun h j hj => by omega, fun h => ?_⟩
  by_contra hlen
  have hlast := h ((s.len.toNat - 1) / 64) (by omega)
  omega

end Sys2Proof.Proofs
end

section
/-! The Poly1305 family (41_poly1305.md): chunks, clamp and accumulator in plain numbers, the one-time key, and the obligations of that
family. -/

namespace Sys2Proof.Proofs

open Sys2Proof Sys2Proof.Machine Sys2Proof.Claims

/-! ### Little-endian numbers (R13) -/

theorem leInt_eq_sum (m : List Byte) : leInt m = ∑ i ∈ Finset.range m.length, (m[i]!).toNat * 2 ^ (8 * i) := by
  induction m with
  | nil => rfl
  | cons b m ih =>
    rw [leInt, ih, List.length_cons, Finset.sum_range_succ', Finset.mul_sum, add_comm]
    congr 1
    · refine Finset.sum_congr rfl fun i _ => ?_
      rw [List.getElem!_cons_succ, Nat.mul_succ, pow_add]
      ring
    · simp

/-- A byte of a string is read back from its little-endian number. -/
theorem ofNat_leInt_div (m : List Byte) {i : Nat} (h : i < m.length) : BitVec.ofNat 8 (leInt m / 256 ^ i) = m[i] := by
  have hb := leBytes_getElem m.length (leInt m) i (by simpa using h)
  simpa only [leBytes_leInt] using hb.symm

/-! ### Chunks (R122) -/

theorem polyChunks_length (m : List Byte) : (polyChunks m).length = (m.length + 15) / 16 := by
  simp [polyChunks]

theorem polyChunks_getElem (m : List Byte) {i : Nat} (h : i < (polyChunks m).length) :
    (polyChunks m)[i] = slice m (16 * i) (16 * i + 16) := by
  simp [polyChunks]

theorem polyChunks_getElem_length (m : List Byte) {i : Nat} (h : i < (polyChunks m).length) :
    (polyChunks m)[i].length = min 16 (m.length - 16 * i) := by
  rw [polyChunks_getElem, slice_length]
  omega

/-- Byte k of the joined chunks lies in chunk k div 16 at place k mod 16, where the message has it. -/
theorem polyChunks_flatten (m : List Byte) : (polyChunks m).flatten = m := by
  have hpiece (j : Nat) (_ : 16 * j < m.length) : (slice m (16 * j) (16 * j + 16)).length = min 16 (m.length - 16 * j) := by
    rw [slice_length]
    omega
  have hlen := flatMap_chunk_length _ 16 m.length (by decide) hpiece ((m.length + 15) / 16) (by omega)
  rw [polyChunks, ← List.flatMap_def]
  refine List.ext_getElem? fun k => ?_
  by_cases hk : k < m.length
  · rw [flatMap_chunk_getElem _ 16 m.length (by decide) hpiece _ (by omega) k (by omega), slice,
      List.getElem?_take_of_lt (by omega), List.getElem?_drop, Nat.div_add_mod]
  · rw [List.getElem?_eq_none (by omega), List.getElem?_eq_none (by omega)]

theorem chunkValue_bounds (c : List Byte) : 2 ^ (8 * c.length) ≤ chunkValue c ∧ chunkValue c < 2 ^ (8 * c.length + 1) := by
  have hc := chunkValue_eq c
  have hlt := leInt_lt c
  rw [pow_succ]
  omega

/-! ### The accumulator (R123) -/

theorem foldl_polyAccumulate_lt (r : Nat) (cs : List (List Byte)) {a : Nat} (h : a < polyPrime) :
    cs.foldl (polyAccumulate r) a < polyPrime := by
  induction cs generalizing a with
  | nil => exact h
  | cons c cs ih => exact ih (polyAccumulate_lt r a c)

theorem polyAccumulator_lt (m k : List Byte) : polyAccumulator m k < polyPrime :=
  foldl_polyAccumulate_lt _ _ (by decide)

theorem polyAccumulator_nil (k : List Byte) : polyAccumulator [] k = 0 := rfl

/-- With r = 0 every chunk leaves the accumulator 0. -/
theorem polyAccumulator_of_polyR_eq_zero {k : List Byte} (h : polyR k = 0) (m : List Byte) : polyAccumulator m k = 0 := by
  rw [polyAccumulator, h]
  induction polyChunks m with
  | nil => rfl
  | cons c cs ih => rwa [List.foldl_cons, polyAccumulate, Nat.mul_zero, Nat.zero_mod]

theorem polyS_of_length {k : List Byte} (h : k.length = 32) : polyS k = leInt (k.drop 16) := by
  rw [polyS, slice, List.take_of_length_le (by simp [h])]

/-- The widths of the datapath for a chunk of at most 16 bytes (R126). -/
theorem accumulate_bounds {a : Nat} {c : List Byte} (k : List Byte) (ha : a < 2 ^ 130 - 5) (hc : c.length ≤ 16) :
    a + chunkValue c < (2 ^ 130 - 5) + 2 ^ 129 ∧ (a + chunkValue c) * polyR k < 2 ^ 255 := by
  have hn : chunkValue c < 2 ^ 129 :=
    lt_of_lt_of_le (chunkValue_bounds c).2 (Nat.pow_le_pow_right (by decide) (by omega))
  refine ⟨by omega, ?_⟩
  calc (a + chunkValue c) * polyR k
      ≤ (2 ^ 130 + 2 ^ 129) * 2 ^ 124 := Nat.mul_le_mul (by omega) (polyR_lt k).le
    _ < 2 ^ 255 := by decide

/-! ### The clamp (R120) -/

/-- The mask, byte by byte. -/
theorem polyClamp_byte : ∀ i < 16, BitVec.ofNat 8 (polyClamp / 256 ^ i) =
    if i = 3 ∨ i = 7 ∨ i = 11 ∨ i = 15 then 0x0f#8 else if i = 4 ∨ i = 8 ∨ i = 12 then 0xfc#8 else 0xff#8 := by
  decide

/-- Byte i of r is byte i of the key, masked. -/
theorem polyR_byte {k : List Byte} {i : Nat} (hk : 16 ≤ k.length) (hi : i < 16) :
    (leBytes 16 (polyR k))[i]? = some (k[i] &&& BitVec.ofNat 8 (polyClamp / 256 ^ i)) := by
  have hl : i < (slice k 0 16).length := by rw [slice_length]; omega
  have hbyte : BitVec.ofNat 8 (leInt (slice k 0 16) / 256 ^ i) = k[i] := by
    rw [ofNat_leInt_div _ hl]
    simp [slice]
  have hpow : (256 : Nat) ^ i = 2 ^ (8 * i) := (pow_mul 2 8 i).symm
  rw [List.getElem?_eq_getElem (by simpa using hi), leBytes_getElem, ← hbyte, ← BitVec.ofNat_and, polyR, hpow,
    ← Nat.shiftRight_eq_div_pow, ← Nat.shiftRight_eq_div_pow, ← Nat.shiftRight_eq_div_pow, Nat.shiftRight_and_distrib]

/-! ### The one-time key (R128) -/

/-- The first eight words of a string of words, from its first 32 bytes. -/
theorem bytesToWords_take_getElem (ws : List Word) (hl : 8 ≤ ws.length) {i : Nat} (hi : i < 8) :
    (bytesToWords 8 ((wordsToBytes ws).take 32))[i] = ws[i] := by
  have hslice : slice ((wordsToBytes ws).take 32) (4 * i) (4 * i + 4) = slice (wordsToBytes ws) (4 * i) (4 * i + 4) := by
    rw [slice, slice, List.drop_take, List.take_take, min_eq_left (by omega)]
  rw [bytesToWords, Vector.getElem_ofFn, hslice, slice_wordsToBytes _ _ (by omega), ofNat_leInt_wordBytes]

/-- The one-time key is the first 32 bytes of the words of the block at counter 0. -/
theorem poly1305KeyGen_wordsToBytes (kw : Vector Word 8) (nw : Vector Word 3) :
    poly1305KeyGen (wordsToBytes kw.toList) (wordsToBytes nw.toList) =
      (wordsToBytes (blockWords kw 0 nw).toList).take 32 := by
  rw [poly1305KeyGen, block_wordsToBytes, slice, List.drop_zero]

theorem effectKeygen_pkey_getElem (s : State) {i : Nat} (hi : i < 8) :
    (effectKeygen s).pkey[i] = (blockWords s.key 0 s.nonce)[i] := by
  interval_cases i <;> rfl

/-! ### The obligations -/

/-- Settles O32: the region check is the only one that applies to POLY. -/
theorem polyCompletes : Obligations.PolyCompletes := fun s =>
  ⟨fun h => exec_of_accepted (by rw [validate_poly, if_neg (not_not.2 h)]),
    fun h => exec_reports (by rw [validate_poly, if_pos h])⟩

/-- Settles O33: the accumulation chunk by chunk, and each width from the bounds of its parts. -/
theorem polyDatapathBounds : Obligations.PolyDatapathBounds := by
  refine ⟨leInt_eq_sum, fun n v => ⟨leBytes_length n v, leInt_leBytes n v⟩, fun k hk => polyS_of_length hk, polyAccumulator_nil,
    fun m c k hm h1 h2 => ?_, fun m k => rfl, fun m k => ?_, fun a k c ha hc => ?_⟩
  · rw [polyAccumulator_append k hm h1 h2, polyAccumulate, chunkValue_eq]
    rfl
  · have hacc : polyAccumulator m k < 2 ^ 130 - 5 := polyAccumulator_lt m k
    have hs := polyS_lt k
    exact ⟨hacc, polyR_lt k, by omega⟩
  · obtain ⟨hsum, hprod⟩ := accumulate_bounds k ha hc
    exact ⟨hsum, hprod, polyAccumulate_lt _ _ _⟩

/-- Settles O34: where no chunk or a zero r leaves the accumulator 0, the tag is s. -/
theorem polyCornerValues : Obligations.PolyCornerValues := by
  have hzero (m : List Byte) {k : List Byte} (h : polyR k = 0) : poly1305 m k = leBytes 16 (polyS k) := by
    rw [poly1305, polyAccumulator_of_polyR_eq_zero h, Nat.zero_add]
  refine ⟨fun k => by rw [poly1305, polyAccumulator_nil, Nat.zero_add], fun m k h => hzero m h, fun m => ?_⟩
  rw [hzero m (show polyR (zeros 32) = 0 by decide), show polyS (zeros 32) = 0 by decide]
  rfl

/-- Settles O35: chunk i is the message's bytes from 16i, of which only the last chunk can lack some. -/
theorem polyChunksCoverMessage : Obligations.PolyChunksCoverMessage := by
  refine ⟨fun m => ⟨polyChunks_flatten m, polyChunks_length m, fun i h => ?_⟩, fun c => ⟨chunkValue_eq c, chunkValue_bounds c⟩⟩
  have hn := polyChunks_length m
  rw [polyChunks_getElem_length]
  omega

/-- Settles O36: masking works byte by byte. -/
theorem polyClampBytes : Obligations.PolyClampBytes := by
  refine ⟨fun k => Nat.and_le_right, fun k hk i hi => ?_⟩
  rw [polyR_byte (by omega) hi, polyClamp_byte i hi, getElem!_pos k i (by omega)]
  have hones : k[i] &&& 0xff#8 = k[i] := BitVec.and_allOnes
  split_ifs
  · rfl
  · rfl
  · rw [hones]

/-- Settles O37: the zero key by its corner value, the boundary vector by evaluation. -/
theorem polySourceVectors : Obligations.PolySourceVectors :=
  ⟨polyCornerValues.2.2 (zeros 64), by decide⟩

/-- Settles O38: the eight words written to PKEY are those of the block at counter 0. -/
theorem keygenCompletes : Obligations.KeygenCompletes := by
  intro s
  refine ⟨(effectKeygen s).pkey, exec_of_accepted (validate_keygen s), fun i hi => effectKeygen_pkey_getElem s hi,
    Vector.ext fun i hi => ?_⟩
  rw [poly1305KeyGen_wordsToBytes, effectKeygen_pkey_getElem s hi, bytesToWords_take_getElem _ (by simp) hi,
    Vector.getElem_toList]

end Sys2Proof.Proofs
end

section
/-! The AEAD family (42_aead.md): the two commands as one output and one tag each, the MAC input, and the obligations of that family. -/

namespace Sys2Proof.Proofs

open Sys2Proof Sys2Proof.Machine Sys2Proof.Claims

/-! ### What the two commands write (R143 to R146) -/

/-- The bytes both commands write at DST: the stream function from counter 1 of the source. -/
def aeadOutput (s : State) : List Byte :=
  streamXor (wordsToBytes s.key.toList) 1 (wordsToBytes s.nonce.toList) (Memory.readBytes s.buf s.src.toNat s.len.toNat)

/-- The tag of the ciphertext `ct` under the one-time key of the state, its associated data read from the buffer. -/
def aeadTag (s : State) (ct : List Byte) : Vector Word 4 :=
  bytesToWords 4 (poly1305 (macInput (Memory.readBytes s.buf s.aad.toNat s.aadLen.toNat) ct)
    ((wordsToBytes (blockWords s.key 0 s.nonce).toList).take 32))

@[simp] theorem aeadOutput_length (s : State) : (aeadOutput s).length = s.len.toNat := by
  simp [aeadOutput]

/-- `constant ‖ iv` is the nonce (R37). -/
theorem constant_append_iv (s : State) : constantBytes s ++ ivBytes s = wordsToBytes s.nonce.toList := by
  have hwords : s.nonce.toList = [s.nonce[0], s.nonce[1], s.nonce[2]] := by
    refine List.ext_getElem (by simp) fun i hi _ => ?_
    have hi3 : i < 3 := by simpa using hi
    interval_cases i <;> simp
  rw [hwords]
  simp [constantBytes, ivBytes, wordsToBytes]

theorem aeadEnc_buf (s : State) :
    (effectOf .aeadEnc s).buf = Memory.writeBytes s.buf s.dst.toNat (aeadOutput s) := by
  rw [effectOf, effectAeadEnc, aeadEncrypt, constant_append_iv]
  rfl

theorem aeadEnc_tag (s : State) : (effectOf .aeadEnc s).tag = aeadTag s (aeadOutput s) := by
  rw [effectOf, effectAeadEnc, aeadEncrypt, constant_append_iv, keyBytes, poly1305KeyGen_wordsToBytes]
  rfl

theorem aeadDec_buf (s : State) :
    (effectOf .aeadDec s).buf = Memory.writeBytes s.buf s.dst.toNat (aeadOutput s) := by
  rw [effectOf, effectAeadDec, aeadDecrypt, constant_append_iv]
  rfl

theorem aeadDec_tag (s : State) :
    (effectOf .aeadDec s).tag = aeadTag s (Memory.readBytes s.buf s.src.toNat s.len.toNat) := by
  rw [effectOf, effectAeadDec, aeadDecrypt, constant_append_iv, keyBytes, poly1305KeyGen_wordsToBytes]
  rfl

theorem validate_of_aeadAccepted {i : Instr} (hi : i = .aeadEnc ∨ i = .aeadDec) {s : State} (h : AeadAccepted s) :
    validate i s = none := by
  obtain ⟨hsrc, hdst, haad, hover, haover, _⟩ := h
  rw [validate_aead hi, if_neg (not_not.2 ⟨hsrc, hdst, haad⟩), if_neg (not_or.2 ⟨hover, haover⟩)]

/-- Byte k of the output in the buffer, by its keystream byte (R105); the counters from 1 on do not wrap. -/
theorem byteAt_aeadOutput_written (s : State) {k : Nat} (hk : k < s.len.toNat) :
    ∃ b, (wordsToBytes (blockWords s.key (1 + BitVec.ofNat 32 (k / 64)) s.nonce).toList)[k % 64]? = some b ∧
      1 + k / 64 < 2 ^ 32 ∧
      Memory.byteAt (Memory.writeBytes s.buf s.dst.toNat (aeadOutput s)) (s.dst.toNat + k) =
        s.byteAt (s.src.toNat + k) ^^^ b := by
  obtain ⟨b, hb, hbyte⟩ := byteAt_streamXor_written s.buf s.key 1 s.nonce s.src.toNat s.dst.toNat hk
  exact ⟨b, hb, by omega, hbyte⟩

theorem readBytes_aeadOutput_written (s : State) :
    Memory.readBytes (Memory.writeBytes s.buf s.dst.toNat (aeadOutput s)) s.dst.toNat s.len.toNat = aeadOutput s := by
  rw [← aeadOutput_length s, readBytes_writeBytes]

/-! ### AEAD_ENC, then AEAD_DEC in place -/

/-- The state AEAD_ENC leaves, its output the source of the next command. -/
def encryptedInPlace (s : State) : State := { s with
  pending := none, done := true, src := s.dst
  buf := Memory.writeBytes s.buf s.dst.toNat (aeadOutput s), tag := aeadTag s (aeadOutput s) }

theorem encryptedInPlace_eq (s : State) :
    { complete (effectOf .aeadEnc s) with src := (complete (effectOf .aeadEnc s)).dst } = encryptedInPlace s := by
  rw [encryptedInPlace, ← aeadEnc_buf, ← aeadEnc_tag]
  rfl

/-- In place nothing overlaps partly, and the associated data keeps clear of the destination. -/
theorem encryptedInPlace_accepted {s : State} (h : AeadAccepted s) : AeadAccepted (encryptedInPlace s) := by
  obtain ⟨_, hdst, haad, _, haover, hlen⟩ := h
  exact ⟨hdst, hdst, haad, fun hover => hover.1 rfl, haover, hlen⟩

/-- The ciphertext is read back from where it was written. -/
theorem encryptedInPlace_source (s : State) :
    Memory.readBytes (encryptedInPlace s).buf (encryptedInPlace s).src.toNat (encryptedInPlace s).len.toNat = aeadOutput s :=
  readBytes_aeadOutput_written s

/-- Decrypting the ciphertext gives the source bytes back (R105). -/
theorem encryptedInPlace_output (s : State) :
    aeadOutput (encryptedInPlace s) = Memory.readBytes s.buf s.src.toNat s.len.toNat := by
  rw [aeadOutput, encryptedInPlace_source]
  exact streamXor_streamXor _ _ _ _

/-- No byte of the associated data was written, so the tag of a ciphertext is the same after AEAD_ENC as before. -/
theorem encryptedInPlace_tag {s : State} (h : ¬ AadDstOverlap s) (ct : List Byte) :
    aeadTag (encryptedInPlace s) ct = aeadTag s ct := by
  have haad : Memory.readBytes (encryptedInPlace s).buf s.aad.toNat s.aadLen.toNat =
      Memory.readBytes s.buf s.aad.toNat s.aadLen.toNat := by
    refine readBytes_writeBytes_disjoint _ _ _ _ _ ?_
    rw [aeadOutput_length]
    omega
  rw [aeadTag, aeadTag, ← haad]
  rfl

/-! ### The MAC input (R140, R142) -/

theorem pad16_length (n : Nat) : (pad16 n).length = (16 - n % 16) % 16 := zeros_length _

theorem macInput_length (aad ct : List Byte) : (macInput aad ct).length =
    aad.length + (16 - aad.length % 16) % 16 + ct.length + (16 - ct.length % 16) % 16 + 16 := by
  simp [macInput, pad16_length, Nat.add_assoc]

/-! ### The obligations -/

/-- Settles O39: the effect of AEAD_ENC, its output byte by byte, and its tag over that output as it stands in the buffer. -/
theorem aeadEncCompletes : Obligations.AeadEncCompletes := by
  intro s h
  refine ⟨_, exec_of_accepted (validate_of_aeadAccepted (.inl rfl) h), rfl, fun k hk => ?_, ?_⟩
  · rw [State.byteAt, complete_buf, aeadEnc_buf]
    exact byteAt_aeadOutput_written s hk
  · rw [complete_tag, complete_buf, aeadEnc_tag, aeadEnc_buf, readBytes_aeadOutput_written, aeadTag]

/-- Settles O40: the effect of AEAD_DEC, its output byte by byte, and its tag over the source as it stood in the buffer. -/
theorem aeadDecCompletes : Obligations.AeadDecCompletes := by
  intro s h
  refine ⟨_, exec_of_accepted (validate_of_aeadAccepted (.inr rfl) h), rfl, fun k hk => ?_, ?_⟩
  · rw [State.byteAt, complete_buf, aeadDec_buf]
    exact byteAt_aeadOutput_written s hk
  · rw [complete_tag, aeadDec_tag, aeadTag]

/-- Settles O41: the branches of validation in their order. -/
theorem aeadRefusals : Obligations.AeadRefusals := by
  refine fun s i hi => ⟨fun h => exec_reports ?_, fun hsrc hdst haad hover => exec_reports ?_, ?_⟩ <;> rw [validate_aead hi]
  · exact if_pos h
  · rw [if_neg (not_not.2 ⟨hsrc, hdst, haad⟩), if_pos hover]
  · split_ifs <;> simp

/-- Settles O42: the stream function is its own inverse, and both tags are over the ciphertext. -/
theorem aeadFunctionsRoundTrip : Obligations.AeadFunctionsRoundTrip := by
  intro aad key iv constant pt
  rw [aeadEncrypt, aeadDecrypt, streamXor_streamXor]

/-- Settles O43: each part of the MAC input has a length divisible by 16. -/
theorem macInputLayout : Obligations.MacInputLayout := by
  refine ⟨fun n => ?_, fun aad ct => ?_⟩
  · rw [pad16_length]
    exact ⟨by omega, by omega, fun b hb => List.eq_of_mem_replicate hb⟩
  · have hlen := macInput_length aad ct
    refine ⟨by omega, by omega, fun c hc => ?_, rfl⟩
    obtain ⟨i, hi, rfl⟩ := List.mem_iff_getElem.1 hc
    have hn := polyChunks_length (macInput aad ct)
    rw [polyChunks_getElem_length]
    omega

/-- Settles O44: AEAD_DEC reads the ciphertext and the associated data that AEAD_ENC saw, so it undoes it and repeats the tag. -/
theorem aeadMachineRoundTrip : Obligations.AeadMachineRoundTrip := by
  intro s h
  have henc := exec_of_accepted (validate_of_aeadAccepted (.inl rfl) h)
  have hdec := exec_of_accepted (validate_of_aeadAccepted (.inr rfl) (encryptedInPlace_accepted h))
  obtain ⟨_, _, _, _, haover, _⟩ := h
  rw [← encryptedInPlace_eq] at hdec
  refine ⟨_, _, henc, hdec, ?_, ?_, fun k hk => ?_, fun a ha => ?_⟩
  · rw [complete_tag, complete_tag, aeadDec_tag, aeadEnc_tag, encryptedInPlace_eq, encryptedInPlace_source,
      encryptedInPlace_tag haover]
  · rw [complete_error, effectOf_error, encryptedInPlace_eq, encryptedInPlace]
  · rw [State.byteAt, complete_buf, aeadDec_buf, encryptedInPlace_eq, encryptedInPlace_output]
    refine (byteAt_writeBytes_inside _ _ (by simpa using hk)).trans ?_
    rw [readBytes_getElem, State.byteAt]
  · exact (exec_byteAt hdec fun _ => ha).trans (exec_byteAt henc fun _ => ha)

end Sys2Proof.Proofs
end
